-- ==== Sys2Proof/Word.lean ====
section
/-! DEFINITION. The unit of transfer and storage: the byte (00_scope.md R10, 20_memory.md R41). -/

namespace Sys2Proof

/-- A byte, bit 7 the most significant (R10). -/
abbrev Byte := BitVec 8

/-- The 16-bit CRC register (R96). -/
abbrev Half := BitVec 16

end Sys2Proof
end

