-- ==== Sys2Proof/Machine/Checksum.lean ====
section
/-! DEFINITION. The two checksum functions of 40_crc.md, pure functions of a byte sequence, and the equal forms the spec gives. -/

namespace Sys2Proof.Machine

/-- One of the eight shifts of R91: right, with the reversed polynomial `0x8C` when a 1 leaves at bit 0. -/
def crc8Shift (crc : Byte) : Byte :=
  if crc.getLsbD 0 then (crc >>> 1) ^^^ 0x8C#8 else crc >>> 1

/-- One byte of R91: exclusive-or into the register, then eight shifts. -/
def crc8Byte (crc x : Byte) : Byte :=
  crc8Shift (crc8Shift (crc8Shift (crc8Shift (crc8Shift (crc8Shift (crc8Shift (crc8Shift (crc ^^^ x))))))))

/-- R91's loop over a byte sequence, from a given register value (R94 law 2). -/
def crc8From (crc : Byte) (x : List Byte) : Byte :=
  x.foldl crc8Byte crc

/-- `CRC8(X)` (R91): init `0x00`, xorout `0x00`. -/
def crc8 (x : List Byte) : Byte :=
  crc8From 0x00#8 x

/-- `rev8` of R92: bit `i` moves to bit `7 - i`. -/
def rev8 (b : Byte) : Byte := b.reverse

/-- One shift of R92: left, with polynomial `0x31` when a 1 leaves at bit 7. -/
def crc8LeftShift (crc : Byte) : Byte :=
  if crc.getLsbD 7 then (crc <<< 1) ^^^ 0x31#8 else crc <<< 1

/-- One byte of R92: reflected input, then eight left shifts. -/
def crc8LeftByte (crc x : Byte) : Byte :=
  crc8LeftShift (crc8LeftShift (crc8LeftShift (crc8LeftShift
    (crc8LeftShift (crc8LeftShift (crc8LeftShift (crc8LeftShift (crc ^^^ rev8 x))))))))

/-- CRC-8 in the parameter model's own terms (R92): reflected output, xorout `0x00`. -/
def crc8Reflected (x : List Byte) : Byte :=
  rev8 (x.foldl crc8LeftByte 0x00#8) ^^^ 0x00#8

/-- `T8[b] = CRC8([b])` (R93). -/
def crc8Table (b : Byte) : Byte := crc8 [b]

/-- Table-driven CRC-8 (R93). -/
def crc8Tabled (x : List Byte) : Byte :=
  x.foldl (fun crc b => crc8Table (crc ^^^ b)) 0x00#8

/-- One of the eight shifts of R96: left, with polynomial `0x1021` when a 1 leaves at bit 15. -/
def crc16Shift (crc : Half) : Half :=
  if crc.getLsbD 15 then (crc <<< 1) ^^^ 0x1021#16 else crc <<< 1

/-- One byte of R96: the byte enters the high half, then eight shifts. -/
def crc16Byte (crc : Half) (x : Byte) : Half :=
  crc16Shift (crc16Shift (crc16Shift (crc16Shift (crc16Shift (crc16Shift (crc16Shift (crc16Shift
    (crc ^^^ (x.setWidth 16 <<< 8)))))))))

/-- R96's loop over a byte sequence, from a given register value (R98 law 2). -/
def crc16From (crc : Half) (x : List Byte) : Half :=
  x.foldl crc16Byte crc

/-- `CRC16(X)` (R96): init `0x0000`, no reflection, xorout `0x0000`. -/
def crc16 (x : List Byte) : Half :=
  crc16From 0x0000#16 x

/-- `T16[b] = CRC16([b])` (R97). -/
def crc16Table (b : Byte) : Half := crc16 [b]

/-- Table-driven CRC-16 (R97). -/
def crc16Tabled (x : List Byte) : Half :=
  x.foldl (fun crc b => (crc <<< 8) ^^^ crc16Table ((crc >>> 8).setWidth 8 ^^^ b)) 0x0000#16

/-- `v[15:8]`. -/
def highByte (v : Half) : Byte := (v >>> 8).setWidth 8

/-- `v[7:0]`. -/
def lowByte (v : Half) : Byte := v.setWidth 8

end Sys2Proof.Machine
end

