-- ==== Sys2Proof/Config.lean ====
section
/-! DEFINITION. The constants of the block (00_scope.md R6) and its two open parameters (R7). -/

namespace Sys2Proof

namespace Config

/-- First byte of the sync marker (R6). -/
abbrev sync0 : Byte := 0xFD#8
/-- Second byte of the sync marker, retained as byte 0 of the header region (R6). -/
abbrev sync1 : Byte := 0xFC#8
/-- Bytes in the header region (R6 HDR_LEN). -/
abbrev hdrLen : Nat := 5
/-- Index of `declaredType` (R6 TYPE_OFF). -/
abbrev typeOff : Nat := 1
/-- Index of `payloadLen` (R6 LEN_OFF). -/
abbrev lenOff : Nat := 2
/-- Index of the reserved byte (R6 RSV_OFF). -/
abbrev rsvOff : Nat := 3
/-- Index of the header CRC-8 byte (R6 CRC8_OFF). -/
abbrev crc8Off : Nat := 4
/-- Index of the first of the two CRC-16 bytes (R6 CRC16_OFF, 90_conflicts.md C2). -/
abbrev crc16Off : Nat := 5
/-- Index of the first payload byte (R6 PAYLOAD_OFF). -/
abbrev payloadOff : Nat := 7
/-- A frame in `B` is `cur_len + 7` bytes (R6 FRAME_OVERHEAD). -/
abbrev frameOverhead : Nat := 7
/-- PayloadPending proceeds only on `cur_len + 8` bytes (R6 NEED_OVERHEAD, 90_conflicts.md C3). -/
abbrev needOverhead : Nat := 8
/-- AwaitingHeader proceeds only on 2 bytes (R6 AH_NEED). -/
abbrev ahNeed : Nat := 2
/-- Largest payloadLen (R6 LEN_MAX). -/
abbrev lenMax : Nat := 255
/-- Largest chunk of GP's ByteSource (R6 CHUNK_MAX); no rule of the block depends on it. -/
abbrev chunkMax : Nat := 128
/-- The least finite capacity the spec allows (20_memory.md R51). -/
abbrev bufCapMin : Nat := 263

end Config

/-- The parameters R7 leaves open, with R7's defaults. They are carried in the state because `exec` takes no other argument;
no operation writes them. DESIGN CHOICE, safe: notes/assumptions/3.md. -/
structure Config where
  /-- `BUF_CAP`; `none` is `unbounded`. -/
  bufCap : Option Nat := none
  /-- `DIAG_EN`. -/
  diagEn : Bool := true
  deriving DecidableEq, Repr

/-- What the 9-bit port `st_count` (45_environment.md R169) shows for a count that 9 bits cannot hold: the spec gives the width and no value
there, so this is a free value, and nothing constrains it. DESIGN CHOICE, safe: notes/assumptions/18.md. -/
opaque Config.wideCount : Nat → BitVec 9

/-- "A finite value must be at least 263" (R51, 92_eei_decisions.md D9). -/
def Config.wf (c : Config) : Bool :=
  match c.bufCap with
  | none => true
  | some n => decide (Config.bufCapMin ≤ n)

end Sys2Proof
end

