-- ==== Sys2Proof/Syntax.lean ====
section
/-! DEFINITION. The operations of the block: one constructor per row of opcode_table.json (00_scope.md R9). -/

namespace Sys2Proof

/-- "PacketType: closed enumeration" (30_encoding.md R69). -/
inductive PacketType where
  | nonsense
  | imu
  | ahrs
  | insGps
  | raw
  deriving DecidableEq, Repr

/-- One constructor per row of the opcode table: three operations of the environment (R111 to R113), the ten
decoder transitions (R130 to R154), and the five packet types (R71 to R75), the last with the three free bytes of their
header pattern `FC tt LL RR CC`. -/
inductive Instr where
  /-- RESET, R111 -/
  | reset
  /-- PUSH X, R112 -/
  | push (x : List Byte)
  /-- CLOSE, R113 -/
  | close
  /-- AH.WAIT, R130 -/
  | ahWait
  /-- AH.SYNC, R131 -/
  | ahSync
  /-- AH.SKIP, R132 -/
  | ahSkip
  /-- HP.WAIT, R140 -/
  | hpWait
  /-- HP.ACCEPT, R141 -/
  | hpAccept
  /-- HP.BADTYPE, R142 -/
  | hpBadtype
  /-- HP.BADCRC, R143 -/
  | hpBadcrc
  /-- PP.WAIT, R150 -/
  | ppWait
  /-- PP.EMIT, R153 -/
  | ppEmit
  /-- PP.BADCRC, R154 -/
  | ppBadcrc
  /-- NONSENSE header, R71 -/
  | nonsense (len rsv crc : Byte)
  /-- IMU header, R72 -/
  | imu (len rsv crc : Byte)
  /-- AHRS header, R73 -/
  | ahrs (len rsv crc : Byte)
  /-- INSGPS header, R74 -/
  | insgps (len rsv crc : Byte)
  /-- RAW header, R75 -/
  | raw (len rsv crc : Byte)
  deriving DecidableEq, Repr

end Sys2Proof
end

