-- ==== Sys2Proof/Machine/State.lean ====
section
/-! DEFINITION. The state of the block (10_state.md R20), its observation traces (R27), and why an operation may be refused. -/

namespace Sys2Proof.Machine

/-- The accumulation buffer as memory: the bytes at indices `0 .. |B|-1`, front first (R22, R30). Why it is the sequence itself and
not a list of cells: notes/assumptions/6.md. -/
abbrev Memory := List Byte

/-- `fs` (R21): three values and no fourth (R31 ENC, R83). PayloadPending carries `cur_type` and `cur_len`, as R24 advises, so that an
`invalid` value cannot be read. DESIGN CHOICE, safe: notes/assumptions/5.md. -/
inductive FrameState where
  | awaitingHeader
  | headerPending
  | payloadPending (curType : PacketType) (curLen : Byte)
  deriving DecidableEq, Repr

/-- The four diagnostic codes (60_exceptions.md R181). -/
inductive DiagCode where
  /-- code 1 (R182) -/
  | badSync
  /-- code 2 (R183) -/
  | badHdrCrc
  /-- code 3 (R184) -/
  | badType
  /-- code 4 (R185) -/
  | badPayloadCrc
  deriving DecidableEq, Repr

/-- One element of `out`: the PacketType and the `cur_len + 7` frame bytes (R28). -/
structure ValidatedPacket where
  ptype : PacketType
  bytes : List Byte
  deriving DecidableEq, Repr

/-- What the environment offers at one step (30_encoding.md R82): an event, or none (code `00`), in which case the decoder steps. -/
inductive EnvEvent where
  | idle
  | push (x : List Byte)
  | close
  | reset
  deriving DecidableEq, Repr

/-- The state of the block, its two traces, and two fields of the model's own, `cfg` (notes/assumptions/3.md) and `inbox`
(notes/assumptions/1.md). -/
structure State where
  /-- the open parameters of R7; written by no operation -/
  cfg : Config
  /-- `fs`, with `cur_type` and `cur_len` (R21, R24) -/
  fs : FrameState
  /-- `B` (R22) -/
  buf : Memory
  /-- `closed` (R26) -/
  closed : Bool
  /-- `out`, oldest first (R28) -/
  out : List ValidatedPacket
  /-- `dg`, oldest first (R29) -/
  dg : List DiagCode
  /-- the environment's coming moves, oldest first -/
  inbox : List EnvEvent
  deriving DecidableEq, Repr

/-- The block has no error outcome of its own: "Nothing in the block is `fault`" (93_implementation_defined.md Part 1, R200). So no
constructor: no meaning and no step raises a fault, which is safe by the type alone. -/
inductive Fault : Type where
  deriving DecidableEq, Repr

/-- Why no step exists (R200, R116). All are safe: the machine stops where the spec says that the operation is not a step. -/
inductive Refusal where
  /-- raised by `exec` alone, for an operation without a meaning; none is left; safe -/
  | notModelled (mnemonic : String)
  /-- raised by a decoder transition or a header operation that is not the one the state selects: "no other transition is
  enabled" (R116); safe -/
  | notEnabled
  /-- raised by PUSH of the empty sequence (R112, R200); safe -/
  | emptyChunk
  /-- raised by PUSH and CLOSE when `closed` is true (R112, R113, R200); safe -/
  | inputClosed
  /-- raised by PUSH and CLOSE while the decoder is not quiescent (R119, R200); safe -/
  | notQuiescent
  /-- raised by PUSH beyond a finite BUF_CAP (R51, R200); safe -/
  | bufferFull
  deriving DecidableEq, Repr

/-- The state after RESET and after power-up, which is the same thing (R34, R210), with R7's defaults and no move of the environment
waiting. -/
def State.reset : State where
  cfg := { bufCap := none, diagEn := true }
  fs := .awaitingHeader
  buf := []
  closed := false
  out := []
  dg := []
  inbox := []

end Sys2Proof.Machine
end

