-- ==== Sys2Proof/Machine/Ops.lean ====
section
/-! DEFINITION. The named operations over the buffer, the registers and the traces (00_scope.md R12), with the one operation
that takes a corruption condition (60_exceptions.md R186). There is no return operation (R187). -/

namespace Sys2Proof.Machine

/-- The outcome of one operation. -/
abbrev Outcome := Host.Outcome State Fault Refusal

/-- `MemRead(i, n)` (R12): the `n` bytes from index `i`; defined only when `i + n <= |B|`; no side effect. -/
def Memory.read (b : Memory) (i n : Nat) : Option (List Byte) :=
  if i + n ≤ b.length then some ((b.drop i).take n) else none

/-- `B[i]` (R11, R12): defined only when `i < |B|`. -/
def Memory.byteAt (b : Memory) (i : Nat) : Option Byte := b[i]?

/-- `B ++ X` (R12, R40). -/
def Memory.append (b : Memory) (x : List Byte) : Memory := b ++ x

/-- `drop(B, n)` (R11, R40). -/
def Memory.dropFront (b : Memory) (n : Nat) : Memory := b.drop n

/-- The cells from an address on: address and byte, rising from the front. -/
def Memory.cellsFrom : Nat → Memory → List Host.Cell
  | _, [] => []
  | a, x :: xs => (a, x) :: Memory.cellsFrom (a + 1) xs

/-- The buffer as cells: the bytes at addresses `0 .. |B|-1`; an unlisted address holds nothing (R30). -/
def Memory.cells (b : Memory) : List Host.Cell := Memory.cellsFrom 0 b

/-- The canonical form of cells: addresses strictly rising. -/
def risingCells : List Host.Cell → Bool
  | [] => true
  | [_] => true
  | c :: d :: rest => decide (c.1 < d.1) && risingCells (d :: rest)

/-- The buffer's cells are in canonical form. -/
def Memory.wf (b : Memory) : Bool := risingCells b.cells

/-- `cur_type`: `none` is `invalid`, in every state but PayloadPending (R24). -/
def State.curType (s : State) : Option PacketType :=
  match s.fs with
  | .awaitingHeader => none
  | .headerPending => none
  | .payloadPending t _ => some t

/-- `cur_len`: `none` is `invalid`, in every state but PayloadPending (R24). -/
def State.curLen (s : State) : Option Byte :=
  match s.fs with
  | .awaitingHeader => none
  | .headerPending => none
  | .payloadPending _ l => some l

/-- `Append(X)` (R12): the only store into `B`. -/
def State.append (s : State) (x : List Byte) : State :=
  { s with buf := s.buf.append x }

/-- `DropFront(n)` (R12). -/
def State.dropFront (s : State) (n : Nat) : State :=
  { s with buf := s.buf.dropFront n }

/-- `fs <- AwaitingHeader`, with `cur_type` and `cur_len` invalid (R24). -/
def State.awaitHeader (s : State) : State :=
  { s with fs := .awaitingHeader }

/-- `fs <- HeaderPending`, with `cur_type` and `cur_len` invalid (R24). -/
def State.pendHeader (s : State) : State :=
  { s with fs := .headerPending }

/-- `cur_type <- t; cur_len <- l; fs <- PayloadPending` (R141). -/
def State.recordHeader (s : State) (t : PacketType) (l : Byte) : State :=
  { s with fs := .payloadPending t l }

/-- `emit(t, F)` (R12): append to `out`. -/
def State.emit (s : State) (t : PacketType) (f : List Byte) : State :=
  { s with out := s.out ++ [{ ptype := t, bytes := f }] }

/-- `diag(c)` (R12): append to `dg` when `DIAG_EN`, otherwise nothing. -/
def State.diag (s : State) (c : DiagCode) : State :=
  if s.cfg.diagEn then { s with dg := s.dg ++ [c] } else s

/-- `closed <- true` (R113, R188). -/
def State.setClosed (s : State) : State :=
  { s with closed := true }

/-- `raise Resync(c)` (R186): the code, one byte dropped, the header fields invalid, AwaitingHeader; nothing is saved. -/
def State.raiseResync (s : State) (c : DiagCode) : State :=
  ((s.diag c).dropFront 1).awaitHeader

/-- The effect of RESET on the block (R111), traces cleared (notes/assumptions/4.md); the parameters and the environment's own
queue are untouched (R211). -/
def State.resetBlock (s : State) : State :=
  { State.reset with cfg := s.cfg, inbox := s.inbox }

/-- The 3-bit number of a diagnostic code (R181). -/
def diagNumber : DiagCode → BitVec 3
  | .badSync => 1#3
  | .badHdrCrc => 2#3
  | .badType => 3#3
  | .badPayloadCrc => 4#3

end Sys2Proof.Machine
end

