-- ==== Sys2Proof/Machine/PacketCode.lean ====
section
/-! DEFINITION. The type codes: the closed enumeration of 30_encoding.md R69 and R70, by exact equality of the whole byte. -/

namespace Sys2Proof.Machine

/-- The code of a PacketType (R69). -/
def typeCode : PacketType → Byte
  | .nonsense => 0x00#8
  | .imu => 0x40#8
  | .ahrs => 0x41#8
  | .insGps => 0x42#8
  | .raw => 0x58#8

/-- `ptype(t)` (R70); `none` on the 251 illegal codes of R76. -/
def ptype (t : Byte) : Option PacketType :=
  if t = 0x00#8 then some .nonsense
  else if t = 0x40#8 then some .imu
  else if t = 0x41#8 then some .ahrs
  else if t = 0x42#8 then some .insGps
  else if t = 0x58#8 then some .raw
  else none

/-- `known(t)`: `t` is one of `KNOWN_TYPES` (R6, R12, R70). -/
def known (t : Byte) : Bool := (ptype t).isSome

/-- The five bytes of the header pattern `FC tt LL RR CC` (R62, R71 to R75). -/
def headerBytes (t : PacketType) (len rsv crc : Byte) : List Byte :=
  [Config.sync1, typeCode t, len, rsv, crc]

end Sys2Proof.Machine
end

