-- ==== Sys2Proof/Machine/Operands.lean ====
section
/-! DEFINITION. Every operand form: the parts of `B` a transition reads (20_memory.md R43, R44; 44_payload_pending.md R151) and the
two lengths (30_encoding.md R63). -/

namespace Sys2Proof.Machine

/-- `B[i:j)` (R11); asked for only where `i <= j <= |B|`. -/
def Memory.slice (b : Memory) (i j : Nat) : List Byte := (b.take j).drop i

/-- `frame_len(L) = L + 7`, a natural number (R63, R102). -/
def frameLen (l : Byte) : Nat := l.toNat + Config.frameOverhead

/-- `need_len(L) = L + 8`, a natural number (R63, R102). -/
def needLen (l : Byte) : Nat := l.toNat + Config.needOverhead

/-- The header region `B[0:5)` (R151). -/
def Memory.header (b : Memory) : List Byte := b.slice 0 Config.hdrLen

/-- `crc_field = [B[5], B[6]]` (R151). -/
def Memory.crcField (b : Memory) : List Byte := b.slice Config.crc16Off (Config.crc16Off + 2)

/-- `payload = B[7 : 7+L)` (R151). -/
def Memory.payload (b : Memory) (l : Byte) : List Byte := b.slice Config.payloadOff (Config.payloadOff + l.toNat)

/-- `frame = B[0 : L+7)` (R151). -/
def Memory.frame (b : Memory) (l : Byte) : List Byte := b.slice 0 (frameLen l)

/-- `guard = B[L+7]` (R151); no transition reads it. -/
def Memory.guardByte (b : Memory) (l : Byte) : Option Byte := b.byteAt (frameLen l)

/-- `declaredType = B[1]` (R63). -/
def Memory.declaredType (b : Memory) : Option Byte := b.byteAt Config.typeOff

/-- `payloadLen = B[2]` (R63). -/
def Memory.payloadLen (b : Memory) : Option Byte := b.byteAt Config.lenOff

/-- What HP.ACCEPT records: the PacketType of `B[1]` and `B[2]`, when both are there and the type is known (R141). -/
def Memory.headerFields (b : Memory) : Option (PacketType × Byte) :=
  match b.declaredType, b.payloadLen with
  | some t, some l => (ptype t).map (fun p => (p, l))
  | _, _ => none

end Sys2Proof.Machine
end

