-- ==== Sys2Proof/Machine/Flags.lean ====
section
/-! DEFINITION. The predicates that select a transition, computed from the state and never stored (10_state.md R26): ENOUGH, OK,
KNOWN and the decision word (30_encoding.md R80), `next_op` (41_stream_ops.md R116), quiescence (R118), admission (R112). -/

namespace Sys2Proof.Machine

/-- `B[0] = 0xFD and B[1] = 0xFC` (30_encoding.md R64). -/
def Memory.markerAtFront (b : Memory) : Bool :=
  b.byteAt 0 == some Config.sync0 && b.byteAt 1 == some Config.sync1

/-- `hdr_ok(B)` (43_header_pending.md R144). -/
def Memory.hdrOk (b : Memory) : Bool := crc8 b.header == 0x00#8

/-- `pay_ok(B, L)` (44_payload_pending.md R155): payload first, then `B[5]`, then `B[6]`. -/
def Memory.payOk (b : Memory) (l : Byte) : Bool := crc16 (b.payload l ++ b.crcField) == 0x0000#16

/-- `known(B[1])` (R70). -/
def Memory.typeKnown (b : Memory) : Bool := b.declaredType.any known

/-- The byte count the state waits for: 2, 5 or `cur_len + 8` (R80). -/
def State.need (s : State) : Nat :=
  match s.fs with
  | .awaitingHeader => Config.ahNeed
  | .headerPending => Config.hdrLen
  | .payloadPending _ l => needLen l

/-- ENOUGH: `|B| >= need` (R80). -/
def State.enough (s : State) : Bool := decide (s.need ≤ s.buf.length)

/-- OK: 0 when ENOUGH is 0, else the state's content test (R80). -/
def State.okBit (s : State) : Bool :=
  s.enough && (match s.fs with
    | .awaitingHeader => s.buf.markerAtFront
    | .headerPending => s.buf.hdrOk
    | .payloadPending _ l => s.buf.payOk l)

/-- KNOWN: 0 unless in HeaderPending with ENOUGH and OK, then `known(B[1])` (R80). -/
def State.knownBit (s : State) : Bool :=
  s.okBit && (match s.fs with
    | .awaitingHeader => false
    | .headerPending => s.buf.typeKnown
    | .payloadPending _ _ => false)

/-- The 2-bit encoding of `fs` (10_state.md R21). -/
def fsCode : FrameState → BitVec 2
  | .awaitingHeader => 0b00#2
  | .headerPending => 0b01#2
  | .payloadPending _ _ => 0b10#2

/-- The decision word `{fs[1:0], ENOUGH, OK, KNOWN}` (R80). -/
def State.decisionWord (s : State) : BitVec 5 :=
  fsCode s.fs ++ BitVec.ofBool s.enough ++ BitVec.ofBool s.okBit ++ BitVec.ofBool s.knownBit

/-- `next_op` (R116): the one transition the decoder may take; byte count first, then the checksum, then the type. -/
def State.nextOp (s : State) : Instr :=
  match s.fs with
  | .awaitingHeader =>
    if s.buf.length < Config.ahNeed then .ahWait
    else if s.buf.markerAtFront then .ahSync
    else .ahSkip
  | .headerPending =>
    if s.buf.length < Config.hdrLen then .hpWait
    else if !s.buf.hdrOk then .hpBadcrc
    else if s.buf.typeKnown then .hpAccept
    else .hpBadtype
  | .payloadPending _ l =>
    if s.buf.length < needLen l then .ppWait
    else if s.buf.payOk l then .ppEmit
    else .ppBadcrc

/-- One of the three WAIT transitions (R118). -/
def isWait (i : Instr) : Bool := i == .ahWait || i == .hpWait || i == .ppWait

/-- The decoder is quiescent: its next transition is a WAIT (R118). -/
def State.quiescent (s : State) : Bool := isWait s.nextOp

/-- Room for a chunk: `|B| + |X| <= BUF_CAP` when BUF_CAP is finite (20_memory.md R51, R112). -/
def State.fits (s : State) (x : List Byte) : Bool :=
  match s.cfg.bufCap with
  | none => true
  | some n => decide (s.buf.length + x.length ≤ n)

/-- A transition runs only when it is the one `next_op` names (R116). -/
def State.whenSelected (s : State) (i : Instr) (effect : State) : Outcome :=
  if s.nextOp = i then .next effect else .refused .notEnabled

end Sys2Proof.Machine
end

