-- ==== Sys2Proof/Machine/AwaitingHeader.lean ====
section
/-! DEFINITION. The transitions of AwaitingHeader (42_awaiting_header.md). -/

namespace Sys2Proof.Machine

/-- AH.WAIT (R130): nothing changes. -/
def execAhWait (s : State) : Outcome := s.whenSelected .ahWait s

/-- AH.SYNC (R131): the `0xFD` is dropped, the `0xFC` becomes `B[0]`. -/
def execAhSync (s : State) : Outcome := s.whenSelected .ahSync (s.dropFront 1).pendHeader

/-- AH.SKIP (R132, R182): exactly one byte. -/
def execAhSkip (s : State) : Outcome := s.whenSelected .ahSkip ((s.diag .badSync).dropFront 1).awaitHeader

end Sys2Proof.Machine
end

