-- ==== Sys2Proof/Machine/Environment.lean ====
section
/-! DEFINITION. The environment's operations RESET, PUSH, CLOSE (41_stream_ops.md R111 to R113). -/

namespace Sys2Proof.Machine

/-- RESET (R111): enabled in every state. -/
def execReset (s : State) : Outcome := .next s.resetBlock

/-- PUSH X (R112): `Append(X)` when admitted; refused by name otherwise (R200). -/
def execPush (x : List Byte) (s : State) : Outcome :=
  if x.isEmpty then .refused .emptyChunk
  else if s.closed then .refused .inputClosed
  else if !s.quiescent then .refused .notQuiescent
  else if !s.fits x then .refused .bufferFull
  else .next (s.append x)

/-- CLOSE (R113): `closed <- true` when admitted; refused by name otherwise (R200). -/
def execClose (s : State) : Outcome :=
  if s.closed then .refused .inputClosed
  else if !s.quiescent then .refused .notQuiescent
  else .next s.setClosed

end Sys2Proof.Machine
end

