-- ==== Sys2Proof/Machine/HeaderPending.lean ====
section
/-! DEFINITION. The transitions of HeaderPending (43_header_pending.md). -/

namespace Sys2Proof.Machine

/-- HP.WAIT (R140): "no bytes consumed". -/
def execHpWait (s : State) : Outcome := s.whenSelected .hpWait s

/-- HP.ACCEPT (R141): records `B[1]` and `B[2]`; no byte is removed. (When it is selected both fields are there.) -/
def execHpAccept (s : State) : Outcome :=
  match s.buf.headerFields with
  | some (t, l) => s.whenSelected .hpAccept (s.recordHeader t l)
  | none => .refused .notEnabled

/-- HP.BADTYPE (R142, R184). -/
def execHpBadtype (s : State) : Outcome := s.whenSelected .hpBadtype (s.raiseResync .badType)

/-- HP.BADCRC (R143, R183). -/
def execHpBadcrc (s : State) : Outcome := s.whenSelected .hpBadcrc (s.raiseResync .badHdrCrc)

end Sys2Proof.Machine
end

