-- ==== Sys2Proof/Machine/PacketTypes.lean ====
section
/-! DEFINITION. The five packet types (30_encoding.md R71 to R75): what the block does with a header region of each type. A packet type
is "a data encoding parsed by the block", so its operation is the block's judging of that header at the front of `B`; why so, and what it
does elsewhere: notes/assumptions/7.md. -/

namespace Sys2Proof.Machine

/-- The block judges the header `FC tt LL RR CC` at the front of `B` in HeaderPending: with a zero CRC-8 residue it records the type and
the length (R70, R141: "The block treats all five identically"), else the header is corrupt (R77, R183). With another header at the front,
or in another frame state, there is no such header to judge. -/
def State.judgeHeader (s : State) (t : PacketType) (len rsv crc : Byte) : Outcome :=
  if s.fs = .headerPending ∧ s.buf.header = headerBytes t len rsv crc then
    if s.buf.hdrOk then .next (s.recordHeader t len) else .next (s.raiseResync .badHdrCrc)
  else .refused .notEnabled

/-- NONSENSE, code `0x00` (R71): a known type, accepted like any other. -/
def execNonsense (len rsv crc : Byte) (s : State) : Outcome := s.judgeHeader .nonsense len rsv crc

/-- IMU, code `0x40` (R72). -/
def execImu (len rsv crc : Byte) (s : State) : Outcome := s.judgeHeader .imu len rsv crc

/-- AHRS, code `0x41` (R73): any payloadLen, not only 48. -/
def execAhrs (len rsv crc : Byte) (s : State) : Outcome := s.judgeHeader .ahrs len rsv crc

/-- INSGPS, code `0x42` (R74). -/
def execInsgps (len rsv crc : Byte) (s : State) : Outcome := s.judgeHeader .insGps len rsv crc

/-- RAW, code `0x58` (R75). -/
def execRaw (len rsv crc : Byte) (s : State) : Outcome := s.judgeHeader .raw len rsv crc

end Sys2Proof.Machine
end

