-- ==== Sys2Proof/Machine/PayloadPending.lean ====
section
/-! DEFINITION. The transitions of PayloadPending (44_payload_pending.md). -/

namespace Sys2Proof.Machine

/-- PP.WAIT (R150): nothing changes. -/
def execPpWait (s : State) : Outcome := s.whenSelected .ppWait s

/-- PP.EMIT (R153): the frame is copied, removed and emitted in one step; the guard byte stays (R152). -/
def execPpEmit (s : State) : Outcome :=
  match s.fs with
  | .payloadPending t l =>
    s.whenSelected .ppEmit (((s.dropFront (frameLen l)).emit t (s.buf.frame l)).awaitHeader)
  | .awaitingHeader => .refused .notEnabled
  | .headerPending => .refused .notEnabled

/-- PP.BADCRC (R154, R185): only the retained `0xFC` is dropped. -/
def execPpBadcrc (s : State) : Outcome := s.whenSelected .ppBadcrc (s.raiseResync .badPayloadCrc)

end Sys2Proof.Machine
end

