-- ==== Sys2Proof/Machine/Dispatch.lean ====
section
/-! DEFINITION. One arm per operation. -/

namespace Sys2Proof.Machine

def exec (i : Instr) (s : State) : Host.Outcome State Fault Refusal :=
  match i with
  | .reset => Sys2Proof.Machine.execReset s
  | .push x => Sys2Proof.Machine.execPush x s
  | .close => Sys2Proof.Machine.execClose s
  | .ahWait => Sys2Proof.Machine.execAhWait s
  | .ahSync => Sys2Proof.Machine.execAhSync s
  | .ahSkip => Sys2Proof.Machine.execAhSkip s
  | .hpWait => Sys2Proof.Machine.execHpWait s
  | .hpAccept => Sys2Proof.Machine.execHpAccept s
  | .hpBadtype => Sys2Proof.Machine.execHpBadtype s
  | .hpBadcrc => Sys2Proof.Machine.execHpBadcrc s
  | .ppWait => Sys2Proof.Machine.execPpWait s
  | .ppEmit => Sys2Proof.Machine.execPpEmit s
  | .ppBadcrc => Sys2Proof.Machine.execPpBadcrc s
  | .nonsense len rsv crc => Sys2Proof.Machine.execNonsense len rsv crc s
  | .imu len rsv crc => Sys2Proof.Machine.execImu len rsv crc s
  | .ahrs len rsv crc => Sys2Proof.Machine.execAhrs len rsv crc s
  | .insgps len rsv crc => Sys2Proof.Machine.execInsgps len rsv crc s
  | .raw len rsv crc => Sys2Proof.Machine.execRaw len rsv crc s

end Sys2Proof.Machine
end

