-- ==== Sys2Proof/WellFormed.lean ====
section
/-! DEFINITION. Which operations the spec gives: the checks on operands. -/

namespace Sys2Proof

/-- A chunk holds at least one byte: "`PUSH []` does not exist" (41_stream_ops.md R112). -/
def chunkOk (x : List Byte) : Bool := !x.isEmpty

/-- The CRC8 field of a header "makes CRC8(B[0:5)) = 0x00" (30_encoding.md R62). -/
def headerOk (t : PacketType) (len rsv crc : Byte) : Bool :=
  Machine.crc8 (Machine.headerBytes t len rsv crc) == 0x00#8

/-- A well-formed operation. A header whose CRC8 field is wrong is a corrupt header and no packet type's header (R77). -/
def Instr.wf : Instr → Bool
  | .reset => true
  | .push x => chunkOk x
  | .close => true
  | .ahWait => true
  | .ahSync => true
  | .ahSkip => true
  | .hpWait => true
  | .hpAccept => true
  | .hpBadtype => true
  | .hpBadcrc => true
  | .ppWait => true
  | .ppEmit => true
  | .ppBadcrc => true
  | .nonsense l r c => headerOk .nonsense l r c
  | .imu l r c => headerOk .imu l r c
  | .ahrs l r c => headerOk .ahrs l r c
  | .insgps l r c => headerOk .insGps l r c
  | .raw l r c => headerOk .raw l r c

end Sys2Proof
end

