-- ==== Sys2Proof/Decode.lean ====
section
/-! DEFINITION. The encodings of 30_encoding.md: the decision word's map (R80, R81), the event codes (R82), the header region
(R62), a decoder over bytes that covers all three, and after it the encoder. The one-byte-first layout that joins the three
formats into one byte form is the model's own: notes/assumptions/8.md. -/

namespace Sys2Proof

/-- Why bytes are no operation. -/
inductive DecodeError where
  /-- no byte at all -/
  | empty
  /-- `PUSH []` does not exist (R112) -/
  | emptyChunk
  /-- bytes after an operation that has no operand -/
  | strayOperand
  /-- event code `00`: no event (R82) -/
  | noEvent
  /-- a decision word with `fs = 11`: not a state (R83) -/
  | noSuchFrameState
  /-- a first byte that is neither an event code, a decision word nor `0xFC` -/
  | unassigned
  /-- a header region that does not begin with `0xFC` (R62) -/
  | noMarker
  /-- one of the 251 illegal type codes (R76) -/
  | unknownType
  /-- a header region that is not 5 bytes (R62) -/
  | badHeaderLength
  deriving DecidableEq, Repr

/-- One row of the opcode map: the decision words `dw` with `dw & mask = pat` select `op` (R81). -/
structure DecisionRow where
  pat : BitVec 5
  mask : BitVec 5
  op : Instr
  deriving DecidableEq, Repr

/-- The table of R81, in its order. -/
def decisionRows : List DecisionRow :=
  [⟨0b00000#5, 0b11100#5, .ahWait⟩,
   ⟨0b00110#5, 0b11110#5, .ahSync⟩,
   ⟨0b00100#5, 0b11110#5, .ahSkip⟩,
   ⟨0b01000#5, 0b11100#5, .hpWait⟩,
   ⟨0b01111#5, 0b11111#5, .hpAccept⟩] ++
  [⟨0b01110#5, 0b11111#5, .hpBadtype⟩,
   ⟨0b01100#5, 0b11110#5, .hpBadcrc⟩,
   ⟨0b10000#5, 0b11100#5, .ppWait⟩,
   ⟨0b10110#5, 0b11110#5, .ppEmit⟩,
   ⟨0b10100#5, 0b11110#5, .ppBadcrc⟩]

/-- The rows whose pattern a decision word matches. -/
def matchingRows (dw : BitVec 5) : List DecisionRow :=
  decisionRows.filter (fun r => dw &&& r.mask == r.pat)

/-- The transition a decision word selects (R81); `fs = 11` selects none (R83). -/
def decodeDecision (dw : BitVec 5) : Except DecodeError Instr :=
  match matchingRows dw with
  | [] => .error .noSuchFrameState
  | r :: _ => .ok r.op

/-- The event a 2-bit event code names, with the chunk that goes with PUSH (R82). -/
def decodeEvent (code : BitVec 2) (operand : List Byte) : Except DecodeError Instr :=
  if code = 0b01#2 then (if operand.isEmpty then .error .emptyChunk else .ok (.push operand))
  else if code = 0b10#2 then (if operand.isEmpty then .ok .close else .error .strayOperand)
  else if code = 0b11#2 then (if operand.isEmpty then .ok .reset else .error .strayOperand)
  else .error .noEvent

/-- The packet-type operation of a header. -/
def headerInstr (t : PacketType) (len rsv crc : Byte) : Instr :=
  match t with
  | .nonsense => .nonsense len rsv crc
  | .imu => .imu len rsv crc
  | .ahrs => .ahrs len rsv crc
  | .insGps => .insgps len rsv crc
  | .raw => .raw len rsv crc

/-- A header region `B[0:5)` by the pattern of its packet type (R62, R71 to R76). The CRC8 byte is a field and is not judged here. -/
def decodeHeader : List Byte → Except DecodeError Instr
  | [m, t, l, r, c] =>
    if m = Config.sync1 then
      match Machine.ptype t with
      | some p => .ok (headerInstr p l r c)
      | none => .error .unknownType
    else .error .noMarker
  | _ => .error .badHeaderLength

/-- The decoder, total on any bytes. A first byte `0xFC` begins a header region; 1, 2, 3 are the event codes; 0 and 4 to 31 are
decision words (by R80 the words 1, 2, 3 never arise: OK and KNOWN are 0 when ENOUGH is 0). -/
def decode : List Byte → Except DecodeError Instr
  | [] => .error .empty
  | b :: rest =>
    if b = Config.sync1 then decodeHeader (b :: rest)
    else if b = 0x01#8 ∨ b = 0x02#8 ∨ b = 0x03#8 then decodeEvent (b.setWidth 2) rest
    else if b.toNat < 32 then
      if rest.isEmpty then decodeDecision (b.setWidth 5) else .error .strayOperand
    else .error .unassigned

/-- The encoder: an event code and its chunk (R82), a decision word with every ignored bit 0 (R81), or a header region (R62). -/
def encode : Instr → List Byte
  | .push x => 0x01#8 :: x
  | .close => [0x02#8]
  | .reset => [0x03#8]
  | .ahWait => [0x00#8]
  | .ahSync => [0x06#8]
  | .ahSkip => [0x04#8]
  | .hpWait => [0x08#8]
  | .hpAccept => [0x0F#8]
  | .hpBadtype => [0x0E#8]
  | .hpBadcrc => [0x0C#8]
  | .ppWait => [0x10#8]
  | .ppEmit => [0x16#8]
  | .ppBadcrc => [0x14#8]
  | .nonsense l r c => Machine.headerBytes .nonsense l r c
  | .imu l r c => Machine.headerBytes .imu l r c
  | .ahrs l r c => Machine.headerBytes .ahrs l r c
  | .insgps l r c => Machine.headerBytes .insGps l r c
  | .raw l r c => Machine.headerBytes .raw l r c

/-- The five bytes of a 40-bit header word, `B[0]` in bits 39 to 32 (R62). -/
def headerWordBytes (w : Nat) : List Byte :=
  [BitVec.ofNat 8 (w >>> 32), BitVec.ofNat 8 (w >>> 24), BitVec.ofNat 8 (w >>> 16), BitVec.ofNat 8 (w >>> 8), BitVec.ofNat 8 w]

/-- The operation of a row's word, numbered as opcode_table.json numbers it: the 2-bit event code, the 5-bit decision word, either
of the two in a whole byte, or the 40-bit header region. PUSH's chunk has no bits in the table, so its word stands for the least
operand, one zero byte. -/
def decodeTableWord (nbits w : Nat) : Option Instr :=
  if 2 ^ nbits ≤ w then none
  else if nbits = 2 then (decodeEvent (BitVec.ofNat 2 w) (if w = 1 then [0x00#8] else [])).toOption
  else if nbits = 5 then (decodeDecision (BitVec.ofNat 5 w)).toOption
  else if nbits = 8 then (decode (BitVec.ofNat 8 w :: (if w = 1 then [0x00#8] else []))).toOption
  else if nbits = 40 then (decode (headerWordBytes w)).toOption
  else none

end Sys2Proof
end

