-- ==== Sys2Proof/Machine/Fetch.lean ====
section
/-! DEFINITION. Which operation is taken next, the schedule of 41_stream_ops.md R119, and how an operation is made the next one. -/

namespace Sys2Proof.Machine

/-- The environment's first waiting move is taken from its queue. -/
def State.popInbox (s : State) : State := { s with inbox := s.inbox.tail }

/-- The operation of the next step, and the state it runs in. No event, or an event that must wait: the decoder steps. PUSH and CLOSE
wait until the decoder is quiescent (R119); RESET is taken at once, also in the middle of a drain (R111).
DESIGN CHOICE, safe: notes/assumptions/2.md. -/
def State.fetch (s : State) : Instr × State :=
  match s.inbox with
  | [] => (s.nextOp, s)
  | .idle :: _ => (s.nextOp, s.popInbox)
  | .push x :: _ => if s.quiescent then (.push x, s.popInbox) else (s.nextOp, s)
  | .close :: _ => if s.quiescent then (.close, s.popInbox) else (s.nextOp, s)
  | .reset :: _ => (.reset, s.popInbox)

/-- An event offered at once. -/
def State.offer (s : State) (e : EnvEvent) : State := { s with inbox := e :: s.inbox }

/-- The event code of an event (30_encoding.md R82). -/
def eventCode : EnvEvent → BitVec 2
  | .idle => 0b00#2
  | .push _ => 0b01#2
  | .close => 0b10#2
  | .reset => 0b11#2

/-- The chunk that goes with an event (R112). -/
def eventOperand : EnvEvent → List Byte
  | .idle => []
  | .push x => x
  | .close => []
  | .reset => []

/-- No event at the next step, so that the decoder steps (R82). -/
def State.letDecoderStep (s : State) : State :=
  if s.inbox.isEmpty then s else s.offer .idle

/-- A frame state and a buffer put in place, the decoder to step next: nothing is changed where the decoder would take `i` anyway. -/
def State.arrange (s : State) (i : Instr) (fs : FrameState) (buf : Memory) : State :=
  (if s.nextOp = i then s else { s with fs := fs, buf := buf }).letDecoderStep

/-- The state in which a header stands at the front of `B` to be judged, the decoder to step next. -/
def State.arrangeHeader (s : State) (t : PacketType) (len rsv crc : Byte) : State :=
  (if s.fs = .headerPending ∧ s.buf.header = headerBytes t len rsv crc then s
   else { s with fs := .headerPending, buf := headerBytes t len rsv crc }).letDecoderStep

/-- A quiescent state: `s` itself, or `s` with an empty buffer in AwaitingHeader. -/
def State.settled (s : State) : State :=
  if s.quiescent then s else { s with fs := .awaitingHeader, buf := [] }

/-- The state whose very next step runs `i`: an event is offered; for a transition the frame state and the front of `B` are those of a
vector of 95_test_vectors.md that selects it; for a packet type its header stands at the front of `B`. (notes/assumptions/9.md) -/
def State.present (s : State) (i : Instr) : State :=
  match i with
  | .reset => s.offer .reset
  | .push x => s.settled.offer (.push x)
  | .close => s.settled.offer .close
  | .ahWait => s.arrange .ahWait .awaitingHeader []
  | .ahSync => s.arrange .ahSync .awaitingHeader [0xFD#8, 0xFC#8]
  | .ahSkip => s.arrange .ahSkip .awaitingHeader [0xFD#8, 0x00#8]
  | .hpWait => s.arrange .hpWait .headerPending [0xFC#8]
  | .hpAccept => s.arrange .hpAccept .headerPending [0xFC#8, 0x00#8, 0x00#8, 0x00#8, 0x63#8]
  | .hpBadtype => s.arrange .hpBadtype .headerPending [0xFC#8, 0x50#8, 0x02#8, 0x00#8, 0x89#8]
  | .hpBadcrc => s.arrange .hpBadcrc .headerPending [0xFC#8, 0x50#8, 0x02#8, 0x00#8, 0x88#8]
  | .ppWait => s.arrange .ppWait (.payloadPending .nonsense 0x00#8) [0xFC#8, 0x00#8, 0x00#8, 0x00#8, 0x63#8]
  | .ppEmit =>
    s.arrange .ppEmit (.payloadPending .nonsense 0x00#8) [0xFC#8, 0x00#8, 0x00#8, 0x00#8, 0x63#8, 0x00#8, 0x00#8, 0xFD#8]
  | .ppBadcrc =>
    s.arrange .ppBadcrc (.payloadPending .nonsense 0x00#8) [0xFC#8, 0x00#8, 0x00#8, 0x00#8, 0x63#8, 0x00#8, 0x01#8, 0xFD#8]
  | .nonsense l r c => s.arrangeHeader .nonsense l r c
  | .imu l r c => s.arrangeHeader .imu l r c
  | .ahrs l r c => s.arrangeHeader .ahrs l r c
  | .insgps l r c => s.arrangeHeader .insGps l r c
  | .raw l r c => s.arrangeHeader .raw l r c

end Sys2Proof.Machine
end

