-- ==== Sys2Proof/Machine/Step.lean ====
section
/-! DEFINITION. One step of the machine (00_scope.md R8, 41_stream_ops.md R110, R119): one atomic operation. -/

namespace Sys2Proof.Machine

/-- The operation the schedule and the decoder's dispatch select, run. -/
def step (s : State) : Host.Outcome State Fault Refusal :=
  exec s.fetch.1 s.fetch.2

/-- `s` with the operation of a table word made the next one (notes/assumptions/9.md); `s` itself where the word is none. -/
def State.withFetchWord (s : State) (nbits w : Nat) : State :=
  match decodeTableWord nbits w with
  | some i => s.present i
  | none => s

end Sys2Proof.Machine
end

