-- ==== Sys2Proof/Machine/Ports.lean ====
section
/-! DEFINITION. The ports of 45_environment.md R169 (informative, no timing), each as a function of the state and of what the outside has done
so far, and the end of the output (R173). No operation reads them. What the rendering leaves open and this file settles:
notes/assumptions/15.md, for the width of `st_count` notes/assumptions/18.md, and for where the outside's counts begin
notes/assumptions/19.md: `sent`, `taken` and `seen` are counted from the last RESET, which clears `out` and `dg`. -/

namespace Sys2Proof.Machine

/-! ### Status -/

/-- `st_fs`: the encoding of `fs`. -/
def State.stFs (s : State) : BitVec 2 := fsCode s.fs

/-- `|B|`, saturating at BUF_CAP, as a number. -/
def State.saturatedCount (s : State) : Nat :=
  match s.cfg.bufCap with
  | none => s.buf.length
  | some n => min s.buf.length n

/-- `st_count`, 9 bits: the saturated count where 9 bits hold it; above 511, which an unbounded or large BUF_CAP allows, the spec gives no value
and the port shows a free one (`Config.wideCount`, DESIGN CHOICE, notes/assumptions/18.md). -/
def State.stCount (s : State) : BitVec 9 :=
  if s.saturatedCount < 2 ^ 9 then BitVec.ofNat 9 s.saturatedCount else Config.wideCount s.saturatedCount

/-! ### Input side: the environment's event, if the port carries one -/

/-- `rst`: RESET while asserted. -/
def rstEvent (rst : Bool) : Option EnvEvent := if rst then some .reset else none

/-- `in_ready`: the decoder is quiescent, `closed` is false and there is room for one byte. -/
def State.inReady (s : State) : Bool := s.quiescent && !s.closed && s.fits [0x00#8]

/-- `in_valid` with `in_data`: a transfer, with `in_ready` high, is `PUSH [in_data]`. -/
def State.inTransfer (s : State) (inValid : Bool) (inData : Byte) : Option EnvEvent :=
  if inValid && s.inReady then some (.push [inData]) else none

/-- `in_close`: CLOSE, accepted when the decoder is quiescent (and, as R113 says of every CLOSE, not closed already). -/
def State.closeAccepted (s : State) (inClose : Bool) : Option EnvEvent :=
  if inClose && (s.quiescent && !s.closed) then some .close else none

/-! ### Output side -/

/-- One transfer of the byte-serial output. -/
structure OutBeat where
  data : Byte
  first : Bool
  last : Bool
  ptype : Byte
  len : BitVec 9
  deriving DecidableEq, Repr

/-- The transfers of the bytes that are left, `out_first` on the byte at index 0 and `out_last` on the last. -/
def beatsFrom (t : Byte) (len : BitVec 9) : Bool → List Byte → List OutBeat
  | _, [] => []
  | first, [b] => [{ data := b, first := first, last := true, ptype := t, len := len }]
  | first, b :: rest => { data := b, first := first, last := false, ptype := t, len := len } :: beatsFrom t len false rest

/-- The transfers of one emitted packet: `out_data`, `out_first`, `out_last`, `out_type`, `out_len` (an emitted frame has at most 262 bytes,
R153, so 9 bits hold its length). -/
def ValidatedPacket.beats (p : ValidatedPacket) : List OutBeat :=
  beatsFrom (typeCode p.ptype) (BitVec.ofNat 9 p.bytes.length) true p.bytes

/-- The transfers of everything emitted since the last RESET, in order. -/
def State.outBeats (s : State) : List OutBeat := s.out.flatMap ValidatedPacket.beats

/-- `out_valid`, for a consumer that has taken `sent` bytes since the last RESET (DESIGN CHOICE, notes/assumptions/19.md): a byte of an emitted
frame is left to transfer. -/
def State.outValid (s : State) (sent : Nat) : Bool := decide (sent < s.outBeats.length)

/-- `out_data`, `out_first`, `out_last`, `out_type`, `out_len` while `out_valid` is high, `sent` counted from the last RESET (log 19). -/
def State.outBeat (s : State) (sent : Nat) : Option OutBeat := s.outBeats[sent]?

/-- How many bytes the consumer has taken since the last RESET (log 19) after a chance to transfer, with `out_ready` as given. -/
def State.outTransfer (s : State) (outReady : Bool) (sent : Nat) : Nat :=
  if s.outValid sent && outReady then sent + 1 else sent

/-- `out_end`, for a consumer that has taken `sent` bytes since the last RESET (log 19): `closed`, and every emitted frame has been sent. -/
def State.outEnd (s : State) (sent : Nat) : Bool := s.closed && !s.outValid sent

/-- The end of the output (R173), for a consumer of whole packets that has read `taken` of them since the last RESET (log 19). -/
def State.endOfOutput (s : State) (taken : Nat) : Bool := s.closed && decide (s.out.length ≤ taken)

/-! ### Diagnostics -/

/-- The codes of `diag_code`, one pulse for each, oldest first; none without DIAG_EN, for `dg` is then empty (R29). -/
def State.diagCodes (s : State) : List (BitVec 3) := s.dg.map diagNumber

/-- `diag_valid`, for an observer that has seen `seen` pulses since the last RESET (DESIGN CHOICE, notes/assumptions/19.md): another code has been
reported. -/
def State.diagValid (s : State) (seen : Nat) : Bool := decide (seen < s.diagCodes.length)

/-- `diag_code` while `diag_valid` is high, `seen` counted from the last RESET (log 19). -/
def State.diagCode (s : State) (seen : Nat) : Option (BitVec 3) := s.diagCodes[seen]?

end Sys2Proof.Machine
end

