-- ==== Sys2Proof/Machine/Stream.lean ====
section
/-! DEFINITION. Sequences of operations: the drain loop (41_stream_ops.md R117), the pseudo-operations FEED, FEEDBYTES, FRAME, WIRE
(30_encoding.md R85), and the stream function (R122). -/

namespace Sys2Proof.Machine

/-- One decoder transition, the one `next_op` names, taken by its meaning in `exec` (R116). -/
def State.decoderStep (s : State) : State :=
  match exec s.nextOp s with
  | .next t => t
  | .fault _ => s
  | .refused _ => s

/-- `n` decoder transitions. -/
def State.decoderSteps : Nat → State → State
  | 0, s => s
  | n + 1, s => State.decoderSteps n s.decoderStep

/-- The drain loop with a bound on its transitions. -/
def State.drainWithin : Nat → State → State
  | 0, s => s
  | n + 1, s => if s.quiescent then s else State.drainWithin n s.decoderStep

/-- The non-WAIT transitions the drain loop takes, in order, with the same bound. -/
def State.drainOpsWithin : Nat → State → List Instr
  | 0, _ => []
  | n + 1, s => if s.quiescent then [] else s.nextOp :: State.drainOpsWithin n s.decoderStep

/-- R117: "at most `2n` non-WAIT transitions" on `n` buffered bytes. -/
def State.drainBound (s : State) : Nat := 2 * s.buf.length

/-- DRAIN (R117): transitions until the next one is a WAIT (which changes nothing). -/
def State.drain (s : State) : State := State.drainWithin s.drainBound s

/-- The non-WAIT transitions of DRAIN, in order. -/
def State.drainOps (s : State) : List Instr := State.drainOpsWithin s.drainBound s

/-- `FEED X`: `PUSH X` followed by `DRAIN` (R85), for an admitted PUSH. -/
def State.feed (s : State) (x : List Byte) : State := (s.append x).drain

/-- `FEED X1; ...; FEED Xn` (R119). -/
def State.feedAll (s : State) (xs : List (List Byte)) : State := xs.foldl State.feed s

/-- The non-WAIT transitions of `FEED X1; ...; FEED Xn`. -/
def State.feedOps : State → List (List Byte) → List Instr
  | _, [] => []
  | s, x :: xs => (s.append x).drainOps ++ State.feedOps (s.feed x) xs

/-- `FEEDBYTES X` (R85). -/
def State.feedBytes (s : State) (x : List Byte) : State := s.feedAll (x.map (fun b => [b]))

/-- The stream function `decode(S)` (R122): the state after the stream `S` is pushed from reset and drained, with the parameters
fixed. -/
def decodeStream (cfg : Config) (stream : List Byte) : State :=
  State.feed { State.reset with cfg := cfg } stream

/-- The first four bytes of a frame (R85). -/
def frameHead (t : Byte) (r : Byte) (p : List Byte) : List Byte :=
  [Config.sync1, t, BitVec.ofNat 8 p.length, r]

/-- `FRAME(t, r, P)`, for `|P| <= 255` (R85). -/
def frameOf (t : Byte) (r : Byte) (p : List Byte) : List Byte :=
  frameHead t r p ++ [crc8 (frameHead t r p), highByte (crc16 p), lowByte (crc16 p)] ++ p

/-- `WIRE(t, r, P)` (R85). -/
def wireOf (t : Byte) (r : Byte) (p : List Byte) : List Byte :=
  Config.sync0 :: frameOf t r p

/-- A position in a stream at which a marker begins, with a header region after it that is all there, passes CRC-8 and names a known
type (the hypothesis of T1, 95_test_vectors.md section 1). -/
def goodHeaderAt (stream : List Byte) (i : Nat) : Bool :=
  Memory.markerAtFront (stream.drop i) && decide (i + 6 ≤ stream.length) &&
    Memory.hdrOk (stream.drop (i + 1)) && Memory.typeKnown (stream.drop (i + 1))

end Sys2Proof.Machine
end

