-- ==== Sys2Proof/Safety.lean ====
section
/-! DEFINITION. What holds in every state a run reaches: the invariants of 10_state.md R31, and what an emitted packet is. -/

namespace Sys2Proof.Machine

/-- The clause of R31 that belongs to the frame state: (AH), (HP), (PP). In AwaitingHeader and HeaderPending `cur_type` and `cur_len`
are `invalid` by the type of `fs`. -/
def frameStateOk (s : State) : Bool :=
  match s.fs with
  | .awaitingHeader => true
  | .headerPending => s.buf.byteAt 0 == some Config.sync1
  | .payloadPending t l =>
    decide (5 ≤ s.buf.length) && s.buf.byteAt 0 == some Config.sync1 && s.buf.hdrOk &&
      s.buf.declaredType == some (typeCode t) && s.buf.payloadLen == some l

/-- A packet the block may emit (44_payload_pending.md R153): the frame begins with `0xFC`, a header of zero residue and the emitted type,
its length is that of `F[2]` plus 7, and the payload and the CRC-16 field have zero residue. -/
def packetOk (p : ValidatedPacket) : Bool :=
  Memory.byteAt p.bytes 0 == some Config.sync1 && Memory.hdrOk p.bytes &&
    Memory.declaredType p.bytes == some (typeCode p.ptype) &&
    (match Memory.payloadLen p.bytes with
      | some l => p.bytes.length == frameLen l && Memory.payOk p.bytes l
      | none => false)

/-- `|B|` within a finite BUF_CAP (20_memory.md R51). -/
def withinCap (s : State) : Bool :=
  match s.cfg.bufCap with
  | none => true
  | some n => decide (s.buf.length ≤ n)

/-- The invariant: R31's (AH), (HP), (PP) and (CL); every emitted packet passed both checks; `B` within its capacity; no diagnostic without
DIAG_EN (R29); the parameters legal (R51). (R31's (ENC) is the type of `fs`.) -/
def State.inv (s : State) : Bool :=
  frameStateOk s && (!s.closed || s.quiescent) && s.out.all packetOk && withinCap s &&
    (s.cfg.diagEn || s.dg.isEmpty) && s.cfg.wf

end Sys2Proof.Machine
end

