-- ==== Sys2Proof/Certificates/Slice0/Obligations.lean ====
section
/-! DEFINITION. The statements for the provers. Each docstring names the rule of spec/ it formalises. "Refused" clauses that name
`notEnabled` say which states are NOT a transition's (R116). -/

open Sys2Proof Sys2Proof.Machine

/-! ### The environment's operations -/

/-- R34, R111: RESET, in every state, leaves the reset values of R34's table (out and dg at the table's `[]`, the first of the two
readings R34 allows: log 4); the parameters and the environment's queue are untouched (R211). State.reset is that state too. -/
def Obligations.ResetGivesResetValues : Prop :=
  (∀ s : State, ∃ t, exec .reset s = .next t ∧ t.fs = .awaitingHeader ∧ t.buf = [] ∧ t.curType = none ∧ t.curLen = none ∧
    t.closed = false ∧ t.out = [] ∧ t.dg = [] ∧ t.cfg = s.cfg ∧ t.inbox = s.inbox) ∧
  exec .reset State.reset = .next State.reset

/-- R112: an admitted PUSH appends its chunk and changes nothing else; it is admitted exactly when the chunk is not empty, the block
is not closed, the decoder is quiescent and there is room. -/
def Obligations.PushAppendsChunk : Prop :=
  ∀ (s : State) (x : List Byte),
    ((x ≠ [] ∧ s.closed = false ∧ s.quiescent = true ∧ ∀ n, s.cfg.bufCap = some n → s.buf.length + x.length ≤ n) →
      exec (.push x) s = .next { s with buf := s.buf ++ x }) ∧
    (¬ (x ≠ [] ∧ s.closed = false ∧ s.quiescent = true ∧ ∀ n, s.cfg.bufCap = some n → s.buf.length + x.length ≤ n) →
      ∃ r, exec (.push x) s = .refused r)

/-- R113: an admitted CLOSE sets `closed` and changes nothing else; it is admitted exactly when the block is not closed and the decoder
is quiescent. -/
def Obligations.CloseSetsClosed : Prop :=
  ∀ s : State,
    (s.closed = false ∧ s.quiescent = true → exec .close s = .next { s with closed := true }) ∧
    (¬ (s.closed = false ∧ s.quiescent = true) → ∃ r, exec .close s = .refused r)

/-- R200, R119, R51: the name under which each inadmissible operation of the environment is refused (the order of the names when several
hold is the model's, log 11). -/
def Obligations.InadmissibleEventsRefusedByName : Prop :=
  ∀ (s : State) (x : List Byte),
    exec (.push []) s = .refused .emptyChunk ∧
    (x ≠ [] → s.closed = true → exec (.push x) s = .refused .inputClosed) ∧
    (s.closed = true → exec .close s = .refused .inputClosed) ∧
    (x ≠ [] → s.closed = false → s.quiescent = false → exec (.push x) s = .refused .notQuiescent) ∧
    (s.closed = false → s.quiescent = false → exec .close s = .refused .notQuiescent) ∧
    (∀ n, x ≠ [] → s.closed = false → s.quiescent = true → s.cfg.bufCap = some n → n < s.buf.length + x.length →
      exec (.push x) s = .refused .bufferFull)

/-! ### The ten transitions -/

/-- R130. The refusal `notEnabled` in every other state is log 10's,
deduced from R116. -/
def Obligations.AhWaitChangesNothing : Prop :=
  ∀ s : State,
    (s.fs = .awaitingHeader ∧ s.buf.length < 2 →
      s.decisionWord &&& 0b11100#5 = 0b00000#5 ∧ exec .ahWait s = .next s ∧ s.drain = s) ∧
    (¬ (s.fs = .awaitingHeader ∧ s.buf.length < 2) → exec .ahWait s = .refused .notEnabled)

/-- R131. The refusal `notEnabled` in every other state is log 10's,
deduced from R116. -/
def Obligations.AhSyncDropsFirstMarkerByte : Prop :=
  ∀ s : State,
    (∀ rest, s.fs = .awaitingHeader → s.buf = 0xFD#8 :: 0xFC#8 :: rest →
      s.decisionWord &&& 0b11110#5 = 0b00110#5 ∧
      exec .ahSync s = .next { s with fs := .headerPending, buf := 0xFC#8 :: rest }) ∧
    (¬ (s.fs = .awaitingHeader ∧ ∃ rest, s.buf = 0xFD#8 :: 0xFC#8 :: rest) → exec .ahSync s = .refused .notEnabled)

/-- R132, R182. The refusal `notEnabled` in every other state is log 10's,
deduced from R116. -/
def Obligations.AhSkipDropsOneByte : Prop :=
  ∀ s : State,
    (∀ a b rest, s.fs = .awaitingHeader → s.buf = a :: b :: rest → ¬ (a = 0xFD#8 ∧ b = 0xFC#8) →
      s.decisionWord &&& 0b11110#5 = 0b00100#5 ∧
      exec .ahSkip s = .next { s with buf := b :: rest, dg := if s.cfg.diagEn then s.dg ++ [.badSync] else s.dg }) ∧
    (¬ (s.fs = .awaitingHeader ∧ ∃ a b rest, s.buf = a :: b :: rest ∧ ¬ (a = 0xFD#8 ∧ b = 0xFC#8)) →
      exec .ahSkip s = .refused .notEnabled)

/-- R140. The refusal `notEnabled` in every other state is log 10's,
deduced from R116. -/
def Obligations.HpWaitChangesNothing : Prop :=
  ∀ s : State,
    (s.fs = .headerPending ∧ s.buf.length < 5 →
      s.decisionWord &&& 0b11100#5 = 0b01000#5 ∧ exec .hpWait s = .next s ∧ s.drain = s) ∧
    (¬ (s.fs = .headerPending ∧ s.buf.length < 5) → exec .hpWait s = .refused .notEnabled)

/-- R141. The refusal `notEnabled` in every other state is log 10's,
deduced from R116. -/
def Obligations.HpAcceptRecordsTypeAndLength : Prop :=
  ∀ s : State,
    (∀ m t l r c rest, s.fs = .headerPending → s.buf = m :: typeCode t :: l :: r :: c :: rest →
      crc8 [m, typeCode t, l, r, c] = 0x00#8 →
      s.decisionWord = 0b01111#5 ∧ exec .hpAccept s = .next { s with fs := .payloadPending t l }) ∧
    (¬ (s.fs = .headerPending ∧ ∃ m t l r c rest, s.buf = m :: typeCode t :: l :: r :: c :: rest ∧
        crc8 [m, typeCode t, l, r, c] = 0x00#8) →
      exec .hpAccept s = .refused .notEnabled)

/-- R142, R184. The refusal `notEnabled` in every other state is log 10's,
deduced from R116. -/
def Obligations.HpBadtypeResynchronises : Prop :=
  ∀ s : State,
    (∀ m t l r c rest, s.fs = .headerPending → s.buf = m :: t :: l :: r :: c :: rest → crc8 [m, t, l, r, c] = 0x00#8 →
      t ∉ [0x00#8, 0x40#8, 0x41#8, 0x42#8, 0x58#8] →
      s.decisionWord = 0b01110#5 ∧
      exec .hpBadtype s = .next { s with fs := .awaitingHeader, buf := t :: l :: r :: c :: rest,
                                         dg := if s.cfg.diagEn then s.dg ++ [.badType] else s.dg }) ∧
    (¬ (s.fs = .headerPending ∧ ∃ m t l r c rest, s.buf = m :: t :: l :: r :: c :: rest ∧ crc8 [m, t, l, r, c] = 0x00#8 ∧
        t ∉ [0x00#8, 0x40#8, 0x41#8, 0x42#8, 0x58#8]) →
      exec .hpBadtype s = .refused .notEnabled)

/-- R143, R183: whatever the type byte. The refusal `notEnabled` in every other state is log 10's,
deduced from R116. -/
def Obligations.HpBadcrcResynchronises : Prop :=
  ∀ s : State,
    (∀ m t l r c rest, s.fs = .headerPending → s.buf = m :: t :: l :: r :: c :: rest → crc8 [m, t, l, r, c] ≠ 0x00#8 →
      s.decisionWord &&& 0b11110#5 = 0b01100#5 ∧
      exec .hpBadcrc s = .next { s with fs := .awaitingHeader, buf := t :: l :: r :: c :: rest,
                                        dg := if s.cfg.diagEn then s.dg ++ [.badHdrCrc] else s.dg }) ∧
    (¬ (s.fs = .headerPending ∧ ∃ m t l r c rest, s.buf = m :: t :: l :: r :: c :: rest ∧ crc8 [m, t, l, r, c] ≠ 0x00#8) →
      exec .hpBadcrc s = .refused .notEnabled)

/-- R150: also when the whole frame is there and only the guard byte is missing. The refusal `notEnabled` in every other state is log 10's,
deduced from R116. -/
def Obligations.PpWaitChangesNothing : Prop :=
  ∀ s : State,
    (∀ t l, s.fs = .payloadPending t l → s.buf.length < l.toNat + 8 →
      s.decisionWord &&& 0b11100#5 = 0b10000#5 ∧ exec .ppWait s = .next s ∧ s.drain = s) ∧
    (¬ (∃ t l, s.fs = .payloadPending t l ∧ s.buf.length < l.toNat + 8) → exec .ppWait s = .refused .notEnabled)

/-- R153: the frame `B[0 : L+7)` is removed and emitted under the recorded type; the guard byte and what follows stay.
The refusal `notEnabled` in every other state is log 10's,
deduced from R116. -/
def Obligations.PpEmitEmitsFrame : Prop :=
  ∀ s : State,
    (∀ t l head a b payload g rest, s.fs = .payloadPending t l → s.buf = head ++ [a, b] ++ payload ++ g :: rest →
      head.length = 5 → payload.length = l.toNat → crc16 (payload ++ [a, b]) = 0x0000#16 →
      s.decisionWord &&& 0b11110#5 = 0b10110#5 ∧
      exec .ppEmit s = .next { s with fs := .awaitingHeader, buf := g :: rest,
                                      out := s.out ++ [{ ptype := t, bytes := head ++ [a, b] ++ payload }] }) ∧
    (¬ (∃ t l head a b payload g rest, s.fs = .payloadPending t l ∧ s.buf = head ++ [a, b] ++ payload ++ g :: rest ∧
        head.length = 5 ∧ payload.length = l.toNat ∧ crc16 (payload ++ [a, b]) = 0x0000#16) →
      exec .ppEmit s = .refused .notEnabled)

/-- R154, R185: one byte is dropped, although `L + 8` were waited for. The refusal `notEnabled` in every other state is log 10's,
deduced from R116. -/
def Obligations.PpBadcrcResynchronises : Prop :=
  ∀ s : State,
    (∀ t l m head a b payload g rest, s.fs = .payloadPending t l → s.buf = m :: head ++ [a, b] ++ payload ++ g :: rest →
      head.length = 4 → payload.length = l.toNat → crc16 (payload ++ [a, b]) ≠ 0x0000#16 →
      s.decisionWord &&& 0b11110#5 = 0b10100#5 ∧
      exec .ppBadcrc s = .next { s with fs := .awaitingHeader, buf := head ++ [a, b] ++ payload ++ g :: rest,
                                        dg := if s.cfg.diagEn then s.dg ++ [.badPayloadCrc] else s.dg }) ∧
    (¬ (∃ t l head a b payload g rest, s.fs = .payloadPending t l ∧ s.buf = head ++ [a, b] ++ payload ++ g :: rest ∧
        head.length = 5 ∧ payload.length = l.toNat ∧ crc16 (payload ++ [a, b]) ≠ 0x0000#16) →
      exec .ppBadcrc s = .refused .notEnabled)

/-! ### The packet types -/

/-- R71 to R75 (as operations: log 7): in HeaderPending, a header of a known type with a zero CRC-8 residue at the front of `B` is
accepted, with any payloadLen and any reserved byte: its type and length are recorded and nothing else changes. -/
def Obligations.PacketTypesAccepted : Prop :=
  ∀ (s : State) (l r c : Byte) (rest : List Byte), s.fs = .headerPending →
    (s.buf = [0xFC#8, 0x00#8, l, r, c] ++ rest → crc8 [0xFC#8, 0x00#8, l, r, c] = 0x00#8 →
      exec (.nonsense l r c) s = .next { s with fs := .payloadPending .nonsense l }) ∧
    (s.buf = [0xFC#8, 0x40#8, l, r, c] ++ rest → crc8 [0xFC#8, 0x40#8, l, r, c] = 0x00#8 →
      exec (.imu l r c) s = .next { s with fs := .payloadPending .imu l }) ∧
    (s.buf = [0xFC#8, 0x41#8, l, r, c] ++ rest → crc8 [0xFC#8, 0x41#8, l, r, c] = 0x00#8 →
      exec (.ahrs l r c) s = .next { s with fs := .payloadPending .ahrs l }) ∧
    (s.buf = [0xFC#8, 0x42#8, l, r, c] ++ rest → crc8 [0xFC#8, 0x42#8, l, r, c] = 0x00#8 →
      exec (.insgps l r c) s = .next { s with fs := .payloadPending .insGps l }) ∧
    (s.buf = [0xFC#8, 0x58#8, l, r, c] ++ rest → crc8 [0xFC#8, 0x58#8, l, r, c] = 0x00#8 →
      exec (.raw l r c) s = .next { s with fs := .payloadPending .raw l })

/-- R77, R183 and log 7: a header of a packet type's pattern whose CRC-8 residue is not zero is corrupt (the resynchronisation of
R186), and without that header at the front of `B` in HeaderPending the operation is refused. -/
def Obligations.PacketTypeHeadersElsewhere : Prop :=
  ∀ (s : State) (p : PacketType) (l r c : Byte),
    (∀ rest, s.fs = .headerPending → s.buf = [0xFC#8, typeCode p, l, r, c] ++ rest → crc8 [0xFC#8, typeCode p, l, r, c] ≠ 0x00#8 →
      exec (headerInstr p l r c) s = .next { s with fs := .awaitingHeader, buf := [typeCode p, l, r, c] ++ rest,
                                                    dg := if s.cfg.diagEn then s.dg ++ [.badHdrCrc] else s.dg }) ∧
    (¬ (s.fs = .headerPending ∧ ∃ rest, s.buf = [0xFC#8, typeCode p, l, r, c] ++ rest) →
      exec (headerInstr p l r c) s = .refused .notEnabled)

/-- R76: the 251 illegal codes; a header region that passes CRC-8 with one of them selects HP.BADTYPE, without a look at the payload: no
frame is emitted and one byte is dropped. -/
def Obligations.IllegalTypesRejected : Prop :=
  (∀ t : Byte, known t = true ↔ t ∈ [0x00#8, 0x40#8, 0x41#8, 0x42#8, 0x58#8]) ∧
  ((List.range 256).filter (fun n => !known (BitVec.ofNat 8 n))).length = 251 ∧
  (∀ m t l r c rest (s : State), known t = false → s.fs = .headerPending → s.buf = m :: t :: l :: r :: c :: rest →
    crc8 [m, t, l, r, c] = 0x00#8 →
    s.nextOp = .hpBadtype ∧
    ∃ u, exec .hpBadtype s = .next u ∧ u.buf = t :: l :: r :: c :: rest ∧ u.out = s.out ∧ u.fs = .awaitingHeader)

/-! ### Selection -/

/-- R80: each bit of the decision word, no bit computed from bytes whose presence an earlier bit has not established. -/
def Obligations.DecisionWordBits : Prop :=
  ∀ s : State,
    (s.fs = .awaitingHeader →
      (s.decisionWord.extractLsb' 3 2 = 0b00#2) ∧
      (s.decisionWord.getLsbD 2 = true ↔ 2 ≤ s.buf.length) ∧
      (s.decisionWord.getLsbD 1 = true ↔ ∃ rest, s.buf = 0xFD#8 :: 0xFC#8 :: rest) ∧
      s.decisionWord.getLsbD 0 = false) ∧
    (s.fs = .headerPending →
      (s.decisionWord.extractLsb' 3 2 = 0b01#2) ∧
      (s.decisionWord.getLsbD 2 = true ↔ 5 ≤ s.buf.length) ∧
      (s.decisionWord.getLsbD 1 = true ↔ 5 ≤ s.buf.length ∧ crc8 (s.buf.take 5) = 0x00#8) ∧
      (s.decisionWord.getLsbD 0 = true ↔ 5 ≤ s.buf.length ∧ crc8 (s.buf.take 5) = 0x00#8 ∧ ∃ t, s.buf[1]? = some (typeCode t))) ∧
    (∀ t l, s.fs = .payloadPending t l →
      (s.decisionWord.extractLsb' 3 2 = 0b10#2) ∧
      (s.decisionWord.getLsbD 2 = true ↔ l.toNat + 8 ≤ s.buf.length) ∧
      (s.decisionWord.getLsbD 1 = true ↔ l.toNat + 8 ≤ s.buf.length ∧
        ∃ a b, s.buf[5]? = some a ∧ s.buf[6]? = some b ∧ crc16 ((s.buf.drop 7).take l.toNat ++ [a, b]) = 0x0000#16) ∧
      s.decisionWord.getLsbD 0 = false)

/-- R81, R116, R83: the decision word's map and `next_op` are the same selection, in every state; a word whose `fs` field is a state matches
exactly one row; `fs = 11` selects no transition. -/
def Obligations.DecisionWordSelectsNextOp : Prop :=
  (∀ s : State, decodeDecision s.decisionWord = .ok s.nextOp ∧ (matchingRows s.decisionWord).length = 1) ∧
  (∀ dw : BitVec 5, dw.extractLsb' 3 2 ≠ 0b11#2 → (matchingRows dw).length = 1) ∧
  (∀ dw : BitVec 5, dw.extractLsb' 3 2 = 0b11#2 → decodeDecision dw = .error .noSuchFrameState)

/-- R116: of the ten transitions exactly the one `next_op` names can run, and it always can. The refusal `notEnabled` of the others is
log 10's, deduced from R116. -/
def Obligations.ExactlyOneTransitionEnabled : Prop :=
  ∀ (s : State) (i : Instr),
    i ∈ [.ahWait, .ahSync, .ahSkip, .hpWait, .hpAccept, .hpBadtype, .hpBadcrc, .ppWait, .ppEmit, .ppBadcrc] →
    ((∃ t, exec i s = .next t) ↔ i = s.nextOp) ∧ (i ≠ s.nextOp → exec i s = .refused .notEnabled)

/-- R118: quiescence is ENOUGH = 0, with R118's bounds in the states of the invariant; nothing changes until the next event. The reset
state is quiescent. -/
def Obligations.QuiescentExactly : Prop :=
  (∀ s : State,
    (s.quiescent = true ↔ s.decisionWord.getLsbD 2 = false) ∧
    (s.inv = true → s.fs = .awaitingHeader → (s.quiescent = true ↔ s.buf.length ≤ 1)) ∧
    (s.inv = true → s.fs = .headerPending → (s.quiescent = true ↔ 1 ≤ s.buf.length ∧ s.buf.length ≤ 4)) ∧
    (∀ t l, s.inv = true → s.fs = .payloadPending t l →
      (s.quiescent = true ↔ 5 ≤ s.buf.length ∧ s.buf.length ≤ l.toNat + 7)) ∧
    (s.quiescent = true → s.inbox = [] → step s = .next s)) ∧
  State.reset.quiescent = true

/-! ### The step -/

/-- R80, R82, R110, R116, R119: with no event, or an event that must wait, the step runs the transition the decision word decodes to,
in the state itself; an admitted event is decoded from its code and its chunk and run with the event taken from the queue. That the
events wait in a queue, and when one is taken, is the model's choice (logs 1, 2). In HeaderPending with a whole header region of a known
type's pattern at the front of `B`, the step is that packet type's operation, whose effect is R141's or R143's: that a packet type is an
operation is the model's choice (log 7). -/
def Obligations.StepRunsDecodedOperation : Prop :=
  ∀ (s : State) (i : Instr),
    (s.inbox = [] → decodeDecision s.decisionWord = .ok i → step s = exec i s) ∧
    (∀ rest, s.inbox = .idle :: rest → decodeDecision s.decisionWord = .ok i → step s = exec i { s with inbox := rest }) ∧
    (∀ e rest, s.inbox = e :: rest → decodeEvent (eventCode e) (eventOperand e) = .ok i → (e = .reset ∨ s.quiescent = true) →
      step s = exec i { s with inbox := rest }) ∧
    (∀ e rest, s.inbox = e :: rest → e ≠ .idle → e ≠ .reset → s.quiescent = false → decodeDecision s.decisionWord = .ok i →
      step s = exec i s) ∧
    (s.inbox = [] → s.fs = .headerPending → decodeHeader (s.buf.take 5) = .ok i → step s = exec i s)

/-- R110, R116: the decoder always has a step. That only an event offered at quiescence can make a step a refusal is log 2's choice: out of
quiescence a PUSH or CLOSE, which R200 refuses, waits in the queue. -/
def Obligations.DecoderStepIsNeverRefused : Prop :=
  ∀ s : State, (∃ t, exec s.nextOp s = .next t) ∧
    (∀ r, step s = .refused r → ∃ e rest, s.inbox = e :: rest ∧ e ≠ .idle ∧ e ≠ .reset ∧ s.quiescent = true)

/-- R22, R40: a step appends to `B` (an admitted PUSH, its own chunk), removes from the front, or (RESET) replaces `B` by `[]`; nothing
else ever happens to a byte of `B`. -/
def Obligations.BufferMovesOnlyAtItsEnds : Prop :=
  ∀ s t : State, step s = .next t →
    (∃ x rest, s.inbox = .push x :: rest ∧ x ≠ [] ∧ s.closed = false ∧ s.quiescent = true ∧ t.buf = s.buf ++ x) ∨
    (∃ n, n ≤ s.buf.length ∧ t.buf = s.buf.drop n) ∨
    (∃ rest, s.inbox = .reset :: rest ∧ t.buf = [])

/-- R28, R29: but for RESET a step only appends to the traces, at most one element to one of them, an element of `out` by PP.EMIT alone. -/
def Obligations.TracesOnlyGrow : Prop :=
  ∀ s t : State, step s = .next t → (∀ rest, s.inbox ≠ .reset :: rest) →
    (t.out = s.out ∨ (s.nextOp = .ppEmit ∧ t.dg = s.dg ∧ ∃ p, t.out = s.out ++ [p])) ∧
    (t.dg = s.dg ∨ (s.cfg.diagEn = true ∧ t.out = s.out ∧ ∃ c, t.dg = s.dg ++ [c]))

/-- R181 to R185, R192: the one code each transition reports, and no other. -/
def Obligations.ConditionReportedByTransition : Prop :=
  ∀ s t : State, s.inbox = [] → step s = .next t →
    t.dg = s.dg ++ (if s.cfg.diagEn then
      (match s.nextOp with
        | .ahSkip => [.badSync]
        | .hpBadcrc => [.badHdrCrc]
        | .hpBadtype => [.badType]
        | .ppBadcrc => [.badPayloadCrc]
        | _ => [])
      else [])

/-- R29, U2: neither `DIAG_EN` nor `dg` has any influence on the rest of the machine. -/
def Obligations.DiagnosticsInfluenceNothing : Prop :=
  ∀ (s t : State) (b : Bool) (d : List DiagCode), step s = .next t →
    ∃ d', step { s with cfg := { s.cfg with diagEn := b }, dg := d } =
      .next { t with cfg := { t.cfg with diagEn := b }, dg := d' } ∧ (b = false → d' = d ∨ d' = [])

/-- R186: `raise Resync(c)`, in the states of the invariant: exactly one byte, the retained `0xFC`, is dropped, the code is appended when
`DIAG_EN`, `cur_type` and `cur_len` become invalid, `fs` AwaitingHeader, and nothing else changes or is saved. -/
def Obligations.ResyncDropsRetainedMarkerByte : Prop :=
  ∀ (s : State) (i : Instr) (c : DiagCode),
    (i, c) ∈ [(Instr.hpBadcrc, DiagCode.badHdrCrc), (Instr.hpBadtype, DiagCode.badType), (Instr.ppBadcrc, DiagCode.badPayloadCrc)] →
    s.inv = true → s.nextOp = i →
    ∃ rest t, s.buf = 0xFC#8 :: rest ∧ exec i s = .next t ∧
      t = { s with fs := .awaitingHeader, buf := rest, dg := if s.cfg.diagEn then s.dg ++ [c] else s.dg } ∧
      t.curType = none ∧ t.curLen = none

/-- R26, R188: once closed, every step but a RESET leaves everything but the environment's queue as it was, and no PUSH or CLOSE runs. -/
def Obligations.ClosedBlockIsFrozen : Prop :=
  ∀ s : State, s.inv = true → s.closed = true →
    (∀ t, step s = .next t → (∀ rest, s.inbox ≠ .reset :: rest) → t = { s with inbox := t.inbox }) ∧
    (∀ x t, exec (.push x) s ≠ .next t) ∧ (∀ t, exec .close s ≠ .next t)

/-! ### Invariants -/

/-- R31, R34: the reset state meets the invariant, with any legal parameters. -/
def Obligations.ResetMeetsInvariant : Prop :=
  ∀ cfg : Config, cfg.wf = true → ({ State.reset with cfg := cfg } : State).inv = true

/-- R31, R51, R153: every step keeps the invariant: the buffer of each frame state is what R31 says, a closed block is quiescent, every
emitted packet passed both checks and has the length its header names, `B` is within its capacity. -/
def Obligations.StepKeepsInvariant : Prop :=
  ∀ s t : State, s.inv = true → step s = .next t → t.inv = true

/-- R7, R33: no step writes the parameters, which are a field of the state by log 3's choice. `cur_type` and `cur_len` are valid exactly in
PayloadPending (R24), in every state by the type that log 5 chose. -/
def Obligations.ParametersAreNotState : Prop :=
  ∀ s t : State, step s = .next t → t.cfg = s.cfg ∧
    (t.curType.isSome = true ↔ ∃ p l, t.fs = .payloadPending p l) ∧ (t.curLen.isSome = true ↔ ∃ p l, t.fs = .payloadPending p l)

/-- R25: in the states of the invariant the recorded type and length are `B[1]` and `B[2]`. -/
def Obligations.RecordedFieldsAreInBuffer : Prop :=
  ∀ s : State, s.inv = true →
    (∀ t, s.curType = some t → s.buf[1]? = some (typeCode t)) ∧ (∀ l, s.curLen = some l → s.buf[2]? = some l)

/-- R221, R51: occupancy at quiescence; no decoder transition lengthens `B`; a one-byte PUSH then reaches 263 at most, and a chunk of `n`
bytes `262 + n`; so with a legal finite `BUF_CAP` byte-serial input at quiescence is never refused for want of room. -/
def Obligations.OccupancyBounds : Prop :=
  ∀ s : State, s.inv = true →
    (s.quiescent = true → s.buf.length ≤ 262 ∧ (s.fs = .awaitingHeader → s.buf.length ≤ 1) ∧
      (s.fs = .headerPending → s.buf.length ≤ 4) ∧ (∀ t l, s.fs = .payloadPending t l → s.buf.length ≤ l.toNat + 7)) ∧
    (∀ t, exec s.nextOp s = .next t → t.buf.length ≤ s.buf.length) ∧
    (∀ x t, exec (.push x) s = .next t → t.buf.length ≤ 262 + x.length) ∧
    (∀ b : Byte, s.closed = false → s.quiescent = true → exec (.push [b]) s = .next { s with buf := s.buf ++ [b] })

/-! ### Sequences -/

/-- R117: a drain always stops: at most `2n` non-WAIT transitions on `n` buffered bytes, which lead to a state whose next transition is a
WAIT, and that WAIT changes nothing; every transition but the WAITs and HP.ACCEPT removes at least one byte, and HP.ACCEPT removes none
and leaves PayloadPending. -/
def Obligations.DrainStops : Prop :=
  ∀ s : State,
    (s.drainOps.length ≤ 2 * s.buf.length ∧ (∀ i ∈ s.drainOps, isWait i = false) ∧
      s.drain = State.decoderSteps s.drainOps.length s ∧ isWait s.drain.nextOp = true ∧
      exec s.drain.nextOp s.drain = .next s.drain) ∧
    (∀ t, isWait s.nextOp = false → exec s.nextOp s = .next t →
      (s.nextOp ≠ .hpAccept → t.buf.length < s.buf.length) ∧
      (s.nextOp = .hpAccept → t.buf = s.buf ∧ ∃ p l, t.fs = .payloadPending p l))

/-- R120: a non-WAIT transition is selected, and has its effect, whatever bytes follow. -/
def Obligations.TransitionsIgnoreLaterBytes : Prop :=
  ∀ (s : State) (y : List Byte), s.quiescent = false →
    (s.append y).nextOp = s.nextOp ∧
    ∃ t, exec s.nextOp s = .next t ∧ exec s.nextOp (s.append y) = .next (t.append y)

/-- R121: two divisions of one stream into non-empty chunks give the same state, the same traces and the same non-WAIT transitions,
from the reset state or any quiescent one. (FEED here is append and drain, without PUSH's admission, so it speaks of closed blocks too.) -/
def Obligations.ChunkBoundariesDoNotMatter : Prop :=
  ∀ (s : State) (xs ys : List (List Byte)), s.quiescent = true → (∀ x ∈ xs, x ≠ []) → (∀ y ∈ ys, y ≠ []) → xs.flatten = ys.flatten →
    s.feedAll xs = s.feedAll ys ∧ s.feedOps xs = s.feedOps ys

/-- R121, U14: appends interleaved with decoder transitions in any way (`none` a transition, `some x` an append) and a final drain give what
one append of all the bytes and a drain give. -/
def Obligations.InterleavingDoesNotMatter : Prop :=
  ∀ (s : State) (moves : List (Option (List Byte))),
    (moves.foldl (fun u m => match m with | none => u.decoderStep | some x => u.append x) s).drain =
      (s.append ((moves.map (fun m => m.getD [])).flatten)).drain

/-- R119, R85: the machine with the chunks waiting in its queue (logs 1, 2) runs the reference schedule: after some steps the state is that
of the FEEDs. With a finite `BUF_CAP` every chunk must have room beside the 262 bytes that can be left at quiescence (R51, R221). -/
def Obligations.StepsRunReferenceSchedule : Prop :=
  ∀ (s : State) (xs : List (List Byte)), s.inbox = [] → s.quiescent = true → s.closed = false →
    (∀ n, s.cfg.bufCap = some n → ∀ x ∈ xs, 262 + x.length ≤ n) → (∀ x ∈ xs, x ≠ []) →
    ∃ k, Host.Core.run Sys2Proof.core k { s with inbox := xs.map EnvEvent.push } = .next (s.feedAll xs)

/-- R122: the stream function is monotone. -/
def Obligations.StreamFunctionIsMonotone : Prop :=
  ∀ (cfg : Config) (x y : List Byte),
    (decodeStream cfg x).out <+: (decodeStream cfg (x ++ y)).out ∧ (decodeStream cfg x).dg <+: (decodeStream cfg (x ++ y)).dg

/-- R23, R122: no byte is lost, duplicated or reordered: what is left in `B` is a suffix of the stream, the emitted frames and `B` are in
stream order in the stream, and every other byte was dropped by a transition of its own. -/
def Obligations.NoByteIsLost : Prop :=
  ∀ (cfg : Config) (x : List Byte),
    (decodeStream cfg x).buf <:+ x ∧
    List.Sublist (((decodeStream cfg x).out.map ValidatedPacket.bytes).flatten ++ (decodeStream cfg x).buf) x ∧
    (decodeStream cfg x).buf.length + ((decodeStream cfg x).out.map (fun p => p.bytes.length)).sum +
      ((({ State.reset with cfg := cfg } : State).append x).drainOps.filter
        (fun i => i ∈ [.ahSync, .ahSkip, .hpBadtype, .hpBadcrc, .ppBadcrc])).length = x.length

/-- R133: the scan law: to the first marker, one byte a transition; and with no marker, all but the last byte. -/
def Obligations.ScanStopsAtFirstMarker : Prop :=
  (∀ (s : State) (pre rest : List Byte), s.fs = .awaitingHeader → s.buf = pre ++ 0xFD#8 :: 0xFC#8 :: rest →
    (∀ i, i < pre.length → Memory.markerAtFront (s.buf.drop i) = false) →
    State.decoderSteps (pre.length + 1) s =
      { s with fs := .headerPending, buf := 0xFC#8 :: rest,
               dg := if s.cfg.diagEn then s.dg ++ List.replicate pre.length .badSync else s.dg }) ∧
  (∀ (s : State) (pre : List Byte) (b : Byte), s.fs = .awaitingHeader → s.buf = pre ++ [b] →
    (∀ i, Memory.markerAtFront (s.buf.drop i) = false) →
    s.drain = { s with buf := [b], dg := if s.cfg.diagEn then s.dg ++ List.replicate pre.length .badSync else s.dg })

/-- R85, R61, R152, R222: a wire frame pushed to an empty block is withheld until one more byte, whatever its value, has been pushed; then
exactly that frame is emitted and the byte is left. (FEED here is append and drain, without PUSH's admission, so it speaks of closed blocks
too.) -/
def Obligations.WireFrameEmittedAfterGuardByte : Prop :=
  ∀ (s : State) (t : PacketType) (r : Byte) (p : List Byte) (g : Byte),
    s.fs = .awaitingHeader → s.buf = [] → p.length ≤ 255 →
    s.feed (wireOf (typeCode t) r p) =
      { s with fs := .payloadPending t (BitVec.ofNat 8 p.length), buf := frameOf (typeCode t) r p } ∧
    (s.feed (wireOf (typeCode t) r p)).feed [g] =
      { s with buf := [g], out := s.out ++ [{ ptype := t, bytes := frameOf (typeCode t) r p }] }

/-- T1 (95_test_vectors.md section 1, from R121, R133, R141, R153): one wire frame in noise that holds no other marker followed by a
header region that passes CRC-8 with a known type, and at least one byte after it: for every chunking exactly that frame is emitted. -/
def Obligations.FrameInNoiseIsFound : Prop :=
  ∀ (cfg : Config) (t : PacketType) (r : Byte) (p noise₁ noise₂ : List Byte) (chunks : List (List Byte)),
    p.length ≤ 255 → noise₂ ≠ [] →
    (∀ i, i ≠ noise₁.length → goodHeaderAt (noise₁ ++ wireOf (typeCode t) r p ++ noise₂) i = false) →
    (∀ x ∈ chunks, x ≠ []) → chunks.flatten = noise₁ ++ wireOf (typeCode t) r p ++ noise₂ →
    (({ State.reset with cfg := cfg } : State).feedAll chunks).out = [{ ptype := t, bytes := frameOf (typeCode t) r p }]

/-- R152, U4: the guard byte's value changes neither the transition nor the emitted frame. -/
def Obligations.GuardByteIsNeverRead : Prop :=
  ∀ (s : State) (t : PacketType) (l : Byte) (f : List Byte) (g g' : Byte) (rest : List Byte),
    s.fs = .payloadPending t l → f.length = l.toNat + 7 →
    ({ s with buf := f ++ g :: rest } : State).nextOp = ({ s with buf := f ++ g' :: rest } : State).nextOp ∧
    (({ s with buf := f ++ g :: rest } : State).nextOp = .ppEmit →
      exec .ppEmit { s with buf := f ++ g :: rest } =
        .next { s with fs := .awaitingHeader, buf := g :: rest, out := s.out ++ [{ ptype := t, bytes := f }] })

/-! ### Checksums -/

/-- R92, R93, R97: the reflected form and the two table-driven forms are the same functions. (The tables' entries are tested, not stated here.) -/
def Obligations.OtherCrcFormsAgree : Prop :=
  ∀ x : List Byte, crc8Reflected x = crc8 x ∧ crc8Tabled x = crc8 x ∧ crc16Tabled x = crc16 x

/-- R94: the laws of CRC8. -/
def Obligations.CrcEightLaws : Prop :=
  crc8 [] = 0x00#8 ∧
  (∀ x y, crc8 (x ++ y) = crc8From (crc8 x) y) ∧
  (∀ x b, crc8 (x ++ [b]) = crc8Table (crc8 x ^^^ b)) ∧
  (∀ x y : List Byte, x.length = y.length → crc8 (List.zipWith (· ^^^ ·) x y) = crc8 x ^^^ crc8 y) ∧
  (∀ x, crc8 (0x00#8 :: x) = crc8 x) ∧ (∀ n, crc8 (List.replicate n 0x00#8) = 0x00#8) ∧
  Function.Bijective crc8Table

/-- R98: the laws of CRC16. -/
def Obligations.CrcSixteenLaws : Prop :=
  crc16 [] = 0x0000#16 ∧
  (∀ x y, crc16 (x ++ y) = crc16From (crc16 x) y) ∧
  (∀ x y : List Byte, x.length = y.length → crc16 (List.zipWith (· ^^^ ·) x y) = crc16 x ^^^ crc16 y) ∧
  (∀ x, crc16 (0x00#8 :: x) = crc16 x) ∧ (∀ n, crc16 (List.replicate n 0x00#8) = 0x0000#16) ∧
  (∀ (s : Half) (a b : Byte), crc16From s [a, b] = 0x0000#16 ↔ s = a ++ b)

/-- R95: appending the CRC-8, and nothing else, gives residue zero; so exactly one fifth byte passes behind a 4-byte prefix, and it
is `CRC8(B[0:4))`. -/
def Obligations.CrcEightResidue : Prop :=
  (∀ (m : List Byte) (c : Byte), crc8 (m ++ [c]) = 0x00#8 ↔ c = crc8 m) ∧
  (∀ m : List Byte, m.length = 4 → ∃! c : Byte, crc8 (m ++ [c]) = 0x00#8) ∧
  (∀ b : List Byte, b.length = 5 → (crc8 b = 0x00#8 ↔ b[4]? = some (crc8 (b.take 4))))

/-- R99, with its counter-example to the low byte first. -/
def Obligations.CrcSixteenResidue : Prop :=
  (∀ (p : List Byte) (a b : Byte), crc16 (p ++ [a, b]) = 0x0000#16 ↔ a = highByte (crc16 p) ∧ b = lowByte (crc16 p)) ∧
  crc16 [0x31#8, 0x32#8, 0x33#8, 0x34#8, 0x35#8, 0x36#8, 0x37#8, 0x38#8, 0x39#8] = 0x31C3#16 ∧
  crc16 [0x31#8, 0x32#8, 0x33#8, 0x34#8, 0x35#8, 0x36#8, 0x37#8, 0x38#8, 0x39#8, 0xC3#8, 0x31#8] = 0xBAFE#16

/-- R66, R144: the header check is a comparison with the CRC8 field. -/
def Obligations.HeaderCheckComparesField : Prop :=
  ∀ b : Memory, 5 ≤ b.length →
    (b.hdrOk = true ↔ crc8 (b.take 5) = 0x00#8) ∧ (b.hdrOk = true ↔ b[4]? = some (crc8 (b.take 4)))

/-- R67, R155: the payload check is a comparison with the CRC-16 field, high byte at `B[5]`; header and guard byte are not covered. -/
def Obligations.PayloadCheckComparesField : Prop :=
  ∀ (head : List Byte) (a b : Byte) (payload rest : List Byte) (l : Byte), head.length = 5 → payload.length = l.toNat →
    (Memory.payOk (head ++ [a, b] ++ payload ++ rest) l = true ↔ crc16 (payload ++ [a, b]) = 0x0000#16) ∧
    (Memory.payOk (head ++ [a, b] ++ payload ++ rest) l = true ↔ a = highByte (crc16 payload) ∧ b = lowByte (crc16 payload))

/-- R100: a single inverted bit never passes. -/
def Obligations.SingleBitErrorsAreDetected : Prop :=
  (∀ (m : List Byte) (i k : Nat) (h : i < m.length), k < 8 → crc8 m = 0x00#8 → crc8 (m.set i (m[i] ^^^ (1#8 <<< k))) ≠ 0x00#8) ∧
  (∀ (m : List Byte) (i k : Nat) (h : i < m.length), k < 8 → crc16 m = 0x0000#16 →
    crc16 (m.set i (m[i] ^^^ (1#8 <<< k))) ≠ 0x0000#16)

/-! ### Encodings -/

/-- R62, R81, R82, R112, in the joined byte form of log 8, the model's choice: decoding the encoding of any well-formed operation gives it
back, with every operand. -/
def Obligations.DecodeOfEncode : Prop :=
  ∀ i : Instr, i.wf = true → decode (encode i) = .ok i

/-- R62, R81, R82, in the joined byte form of log 8, the model's choice, and the other direction: bytes that decode are the operation's
encoding, or a decision word that differs from it in bits the map of R81 ignores. -/
def Obligations.DecodedBytesAreTheEncoding : Prop :=
  ∀ (bs : List Byte) (i : Instr), decode bs = .ok i →
    bs = encode i ∨
    ∃ (b : Byte) (r : DecisionRow), bs = [b] ∧ r ∈ decisionRows ∧ r.op = i ∧ b.toNat < 32 ∧ b.setWidth 5 &&& r.mask = r.pat

/-- R62, R71 to R75: every 40-bit word that a packet type's row of the table matches decodes to that type with the fields of R62 (through the
joined byte form of log 8, the model's choice). -/
def Obligations.HeaderWordsDecodeByTheirRow : Prop :=
  ∀ w : Nat, w < 2 ^ 40 →
    (w &&& 0xFFFF000000 = 0xFC00000000 →
      decodeTableWord 40 w = some (.nonsense (BitVec.ofNat 8 (w / 2 ^ 16)) (BitVec.ofNat 8 (w / 2 ^ 8)) (BitVec.ofNat 8 w))) ∧
    (w &&& 0xFFFF000000 = 0xFC40000000 →
      decodeTableWord 40 w = some (.imu (BitVec.ofNat 8 (w / 2 ^ 16)) (BitVec.ofNat 8 (w / 2 ^ 8)) (BitVec.ofNat 8 w))) ∧
    (w &&& 0xFFFF000000 = 0xFC41000000 →
      decodeTableWord 40 w = some (.ahrs (BitVec.ofNat 8 (w / 2 ^ 16)) (BitVec.ofNat 8 (w / 2 ^ 8)) (BitVec.ofNat 8 w))) ∧
    (w &&& 0xFFFF000000 = 0xFC42000000 →
      decodeTableWord 40 w = some (.insgps (BitVec.ofNat 8 (w / 2 ^ 16)) (BitVec.ofNat 8 (w / 2 ^ 8)) (BitVec.ofNat 8 w))) ∧
    (w &&& 0xFFFF000000 = 0xFC58000000 →
      decodeTableWord 40 w = some (.raw (BitVec.ofNat 8 (w / 2 ^ 16)) (BitVec.ofNat 8 (w / 2 ^ 8)) (BitVec.ofNat 8 w)))

/-- A word of each format, written out from the spec's encoding, decodes to its operation (R62, R81, R82). That one decoder reads the three
formats, and takes the bytes 1, 2 and 3 for event codes, is log 8's choice. -/
def Obligations.SpecWordsDecode : Prop :=
  decode [0x03#8] = .ok .reset ∧ decode [0x01#8, 0xFC#8, 0x40#8] = .ok (.push [0xFC#8, 0x40#8]) ∧ decode [0x02#8] = .ok .close ∧
  decode [0b00000110#8] = .ok .ahSync ∧ decode [0b00001111#8] = .ok .hpAccept ∧ decode [0b00010110#8] = .ok .ppEmit ∧
  decode [0xFC#8, 0x40#8, 0x04#8, 0x01#8, 0x37#8] = .ok (.imu 0x04#8 0x01#8 0x37#8) ∧
  decode [0xFC#8, 0x50#8, 0x02#8, 0x00#8, 0x89#8] = .error .unknownType ∧ decode [0b00011000#8] = .error .noSuchFrameState

/-! ### Ports -/

/-- R169, which is informative, as values without timing (log 15, the model's choice): the byte-serial form of a packet carries its bytes in
order, marks exactly the first and the last, and holds the type code and the length stable. -/
def Obligations.BeatsCarryTheFrame : Prop :=
  ∀ p : ValidatedPacket,
    p.beats.map OutBeat.data = p.bytes ∧
    (∀ (i : Nat) (x : OutBeat), p.beats[i]? = some x →
      (x.first = true ↔ i = 0) ∧ (x.last = true ↔ i + 1 = p.bytes.length) ∧ x.ptype = typeCode p.ptype ∧
        x.len = BitVec.ofNat 9 p.bytes.length)

/-- R169, R173, R181, as values without timing (log 15, the model's choice; `clk` has no value), the outside's counts running from the last
RESET (log 19).

Input: `in_ready` is high exactly when a one-byte PUSH is admitted; a transfer with it high is that PUSH; `in_close` is CLOSE, accepted exactly
when a CLOSE is admitted; `rst` is RESET.

Status: `st_fs` is the encoding of `fs`; `st_count` is `|B|` saturating at BUF_CAP wherever 9 bits hold that (above, it is a free value, log 18),
so in the states of the invariant it is `|B|` at quiescence.

Output: the transfers are those of the emitted packets one after another (each as BeatsCarryTheFrame says), so their data are the packets'
bytes; `out_valid` is high exactly while one is left, and then the transfer's values are shown; one is taken exactly with `out_ready` high too;
`out_end` is high when the block is closed and none is left; R173's end is reached when every packet has been read.

Diagnostics: `diag_valid` is high exactly while a reported code is unseen, and `diag_code` is its number by R181: 1, 2, 3 or 4. -/
def Obligations.PortsShowState : Prop :=
  ∀ s : State,
    ((∀ b : Byte, s.inReady = true ↔ exec (.push [b]) s = .next { s with buf := s.buf ++ [b] }) ∧
      (∀ v b e, s.inTransfer v b = some e ↔ v = true ∧ s.inReady = true ∧ e = .push [b]) ∧
      (∀ c e, s.closeAccepted c = some e ↔ c = true ∧ e = .close ∧ s.closed = false ∧ s.quiescent = true) ∧
      (s.closeAccepted true = some .close ↔ exec .close s = .next { s with closed := true }) ∧
      (∀ r e, rstEvent r = some e ↔ r = true ∧ e = .reset)) ∧
    ((s.stFs = 0b00#2 ↔ s.fs = .awaitingHeader) ∧ (s.stFs = 0b01#2 ↔ s.fs = .headerPending) ∧
      (s.stFs = 0b10#2 ↔ ∃ t l, s.fs = .payloadPending t l) ∧
      (s.cfg.bufCap = none → s.buf.length ≤ 511 → s.stCount.toNat = s.buf.length) ∧
      (∀ n, s.cfg.bufCap = some n → min s.buf.length n ≤ 511 → s.stCount.toNat = min s.buf.length n) ∧
      (s.inv = true → s.quiescent = true → s.stCount.toNat = s.buf.length)) ∧
    (s.outBeats = (s.out.map ValidatedPacket.beats).flatten ∧
      (∀ n, (s.outBeat n).map OutBeat.data = ((s.out.map ValidatedPacket.bytes).flatten)[n]?) ∧
      (∀ n, s.outBeat n = s.outBeats[n]?) ∧
      (∀ n, s.outValid n = true ↔ n < ((s.out.map ValidatedPacket.bytes).flatten).length) ∧
      (∀ n, s.outTransfer true n = (if s.outValid n = true then n + 1 else n) ∧ s.outTransfer false n = n) ∧
      (∀ n, s.outEnd n = true ↔ s.closed = true ∧ s.outValid n = false) ∧
      (∀ n, s.endOfOutput n = true ↔ s.closed = true ∧ s.out.length ≤ n)) ∧
    (∀ n, (s.diagValid n = true ↔ n < s.dg.length) ∧ (s.diagValid n = true ↔ s.diagCode n ≠ none) ∧
      (s.diagCode n = some 1#3 ↔ s.dg[n]? = some .badSync) ∧ (s.diagCode n = some 2#3 ↔ s.dg[n]? = some .badHdrCrc) ∧
      (s.diagCode n = some 3#3 ↔ s.dg[n]? = some .badType) ∧ (s.diagCode n = some 4#3 ↔ s.dg[n]? = some .badPayloadCrc))
end

