-- ==== Sys2Proof/Laws/Memory.lean ====
section
/-! SUPPORT. Laws of the buffer's accesses: its cells are always in canonical form, and what a read gives after each access
(20_memory.md R40). -/

namespace Sys2Proof.Machine

theorem Memory.cellsFrom_rising (b : Memory) : ∀ a, risingCells (Memory.cellsFrom a b) = true := by
  induction b with
  | nil => intro a; rfl
  | cons x xs ih =>
    intro a
    cases xs with
    | nil => rfl
    | cons y ys =>
      have h := ih (a + 1)
      simp only [Memory.cellsFrom] at h ⊢
      simp [risingCells, h]

/-- Every buffer has the canonical form, so every memory operation keeps it. -/
@[simp] theorem Memory.wf_always (b : Memory) : Memory.wf b = true := Memory.cellsFrom_rising b 0

theorem Memory.wf_append (b : Memory) (x : List Byte) : Memory.wf (b.append x) = true := Memory.wf_always _

theorem Memory.wf_dropFront (b : Memory) (n : Nat) : Memory.wf (b.dropFront n) = true := Memory.wf_always _

/-- The cells say all that the buffer holds. -/
theorem Memory.cellsFrom_bytes (b : Memory) : ∀ a, (Memory.cellsFrom a b).map Prod.snd = b := by
  induction b with
  | nil => intro a; rfl
  | cons x xs ih => intro a; simp [Memory.cellsFrom, ih]

theorem Memory.cells_bytes (b : Memory) : b.cells.map Prod.snd = b := Memory.cellsFrom_bytes b 0

/-- A read below the old length is not changed by an append (R40: "indices of existing bytes unchanged"). -/
theorem Memory.byteAt_append (b : Memory) (x : List Byte) {i : Nat} (h : i < b.length) :
    (b.append x).byteAt i = b.byteAt i := by
  simp [Memory.append, Memory.byteAt, List.getElem?_append_left h]

/-- A removal from the front lowers every index (R40). -/
theorem Memory.byteAt_dropFront (b : Memory) (n i : Nat) : (b.dropFront n).byteAt i = b.byteAt (n + i) := by
  simp [Memory.dropFront, Memory.byteAt]

/-- `MemRead` gives the `n` bytes it is asked for, or is not defined (R12). -/
theorem Memory.read_length {b : Memory} {i n : Nat} {x : List Byte} (h : b.read i n = some x) : x.length = n := by
  unfold Memory.read at h
  split at h
  · cases h; simp; omega
  · cases h

theorem Memory.read_slice {b : Memory} {i n : Nat} (h : i + n ≤ b.length) : b.read i n = some (b.slice i (i + n)) := by
  simp [Memory.read, Memory.slice, h, List.drop_take]

/-- A slice below the old length is not changed by an append. -/
theorem Memory.slice_append (b y : List Byte) {i j : Nat} (h : j ≤ b.length) :
    Memory.slice (b ++ y) i j = Memory.slice b i j := by
  simp [Memory.slice, List.take_append_of_le_length h]

end Sys2Proof.Machine
end

