-- ==== Sys2Proof/Laws/State.lean ====
section
/-! SUPPORT. One lemma per field per update of the state, so that no proof unfolds a record update. -/

namespace Sys2Proof.Machine

section
variable (s : State) (x : List Byte)
@[simp] theorem State.append_cfg : (s.append x).cfg = s.cfg := rfl
@[simp] theorem State.append_fs : (s.append x).fs = s.fs := rfl
@[simp] theorem State.append_buf : (s.append x).buf = s.buf ++ x := rfl
@[simp] theorem State.append_closed : (s.append x).closed = s.closed := rfl
@[simp] theorem State.append_out : (s.append x).out = s.out := rfl
@[simp] theorem State.append_dg : (s.append x).dg = s.dg := rfl
@[simp] theorem State.append_inbox : (s.append x).inbox = s.inbox := rfl
end

section
variable (s : State) (n : Nat)
@[simp] theorem State.dropFront_cfg : (s.dropFront n).cfg = s.cfg := rfl
@[simp] theorem State.dropFront_fs : (s.dropFront n).fs = s.fs := rfl
@[simp] theorem State.dropFront_buf : (s.dropFront n).buf = s.buf.drop n := rfl
@[simp] theorem State.dropFront_closed : (s.dropFront n).closed = s.closed := rfl
@[simp] theorem State.dropFront_out : (s.dropFront n).out = s.out := rfl
@[simp] theorem State.dropFront_dg : (s.dropFront n).dg = s.dg := rfl
@[simp] theorem State.dropFront_inbox : (s.dropFront n).inbox = s.inbox := rfl
end

section
variable (s : State)
@[simp] theorem State.awaitHeader_cfg : (s.awaitHeader).cfg = s.cfg := rfl
@[simp] theorem State.awaitHeader_fs : (s.awaitHeader).fs = .awaitingHeader := rfl
@[simp] theorem State.awaitHeader_buf : (s.awaitHeader).buf = s.buf := rfl
@[simp] theorem State.awaitHeader_closed : (s.awaitHeader).closed = s.closed := rfl
@[simp] theorem State.awaitHeader_out : (s.awaitHeader).out = s.out := rfl
@[simp] theorem State.awaitHeader_dg : (s.awaitHeader).dg = s.dg := rfl
@[simp] theorem State.awaitHeader_inbox : (s.awaitHeader).inbox = s.inbox := rfl
end

section
variable (s : State)
@[simp] theorem State.pendHeader_cfg : (s.pendHeader).cfg = s.cfg := rfl
@[simp] theorem State.pendHeader_fs : (s.pendHeader).fs = .headerPending := rfl
@[simp] theorem State.pendHeader_buf : (s.pendHeader).buf = s.buf := rfl
@[simp] theorem State.pendHeader_closed : (s.pendHeader).closed = s.closed := rfl
@[simp] theorem State.pendHeader_out : (s.pendHeader).out = s.out := rfl
@[simp] theorem State.pendHeader_dg : (s.pendHeader).dg = s.dg := rfl
@[simp] theorem State.pendHeader_inbox : (s.pendHeader).inbox = s.inbox := rfl
end

section
variable (s : State) (t : PacketType) (l : Byte)
@[simp] theorem State.recordHeader_cfg : (s.recordHeader t l).cfg = s.cfg := rfl
@[simp] theorem State.recordHeader_fs : (s.recordHeader t l).fs = .payloadPending t l := rfl
@[simp] theorem State.recordHeader_buf : (s.recordHeader t l).buf = s.buf := rfl
@[simp] theorem State.recordHeader_closed : (s.recordHeader t l).closed = s.closed := rfl
@[simp] theorem State.recordHeader_out : (s.recordHeader t l).out = s.out := rfl
@[simp] theorem State.recordHeader_dg : (s.recordHeader t l).dg = s.dg := rfl
@[simp] theorem State.recordHeader_inbox : (s.recordHeader t l).inbox = s.inbox := rfl
end

section
variable (s : State) (t : PacketType) (f : List Byte)
@[simp] theorem State.emit_cfg : (s.emit t f).cfg = s.cfg := rfl
@[simp] theorem State.emit_fs : (s.emit t f).fs = s.fs := rfl
@[simp] theorem State.emit_buf : (s.emit t f).buf = s.buf := rfl
@[simp] theorem State.emit_closed : (s.emit t f).closed = s.closed := rfl
@[simp] theorem State.emit_out : (s.emit t f).out = s.out ++ [{ ptype := t, bytes := f }] := rfl
@[simp] theorem State.emit_dg : (s.emit t f).dg = s.dg := rfl
@[simp] theorem State.emit_inbox : (s.emit t f).inbox = s.inbox := rfl
end

section
variable (s : State)
@[simp] theorem State.setClosed_cfg : (s.setClosed).cfg = s.cfg := rfl
@[simp] theorem State.setClosed_fs : (s.setClosed).fs = s.fs := rfl
@[simp] theorem State.setClosed_buf : (s.setClosed).buf = s.buf := rfl
@[simp] theorem State.setClosed_closed : (s.setClosed).closed = true := rfl
@[simp] theorem State.setClosed_out : (s.setClosed).out = s.out := rfl
@[simp] theorem State.setClosed_dg : (s.setClosed).dg = s.dg := rfl
@[simp] theorem State.setClosed_inbox : (s.setClosed).inbox = s.inbox := rfl
end

section
variable (s : State)
@[simp] theorem State.popInbox_cfg : (s.popInbox).cfg = s.cfg := rfl
@[simp] theorem State.popInbox_fs : (s.popInbox).fs = s.fs := rfl
@[simp] theorem State.popInbox_buf : (s.popInbox).buf = s.buf := rfl
@[simp] theorem State.popInbox_closed : (s.popInbox).closed = s.closed := rfl
@[simp] theorem State.popInbox_out : (s.popInbox).out = s.out := rfl
@[simp] theorem State.popInbox_dg : (s.popInbox).dg = s.dg := rfl
@[simp] theorem State.popInbox_inbox : (s.popInbox).inbox = s.inbox.tail := rfl
end

section
variable (s : State) (e : EnvEvent)
@[simp] theorem State.offer_cfg : (s.offer e).cfg = s.cfg := rfl
@[simp] theorem State.offer_fs : (s.offer e).fs = s.fs := rfl
@[simp] theorem State.offer_buf : (s.offer e).buf = s.buf := rfl
@[simp] theorem State.offer_closed : (s.offer e).closed = s.closed := rfl
@[simp] theorem State.offer_out : (s.offer e).out = s.out := rfl
@[simp] theorem State.offer_dg : (s.offer e).dg = s.dg := rfl
@[simp] theorem State.offer_inbox : (s.offer e).inbox = e :: s.inbox := rfl
end

section
variable (s : State)
@[simp] theorem State.resetBlock_cfg : (s.resetBlock).cfg = s.cfg := rfl
@[simp] theorem State.resetBlock_fs : (s.resetBlock).fs = .awaitingHeader := rfl
@[simp] theorem State.resetBlock_buf : (s.resetBlock).buf = [] := rfl
@[simp] theorem State.resetBlock_closed : (s.resetBlock).closed = false := rfl
@[simp] theorem State.resetBlock_out : (s.resetBlock).out = [] := rfl
@[simp] theorem State.resetBlock_dg : (s.resetBlock).dg = [] := rfl
@[simp] theorem State.resetBlock_inbox : (s.resetBlock).inbox = s.inbox := rfl
end

section
variable (s : State) (c : DiagCode)
@[simp] theorem State.diag_cfg : (s.diag c).cfg = s.cfg := by
  unfold State.diag; split <;> rfl
@[simp] theorem State.diag_fs : (s.diag c).fs = s.fs := by
  unfold State.diag; split <;> rfl
@[simp] theorem State.diag_buf : (s.diag c).buf = s.buf := by
  unfold State.diag; split <;> rfl
@[simp] theorem State.diag_closed : (s.diag c).closed = s.closed := by
  unfold State.diag; split <;> rfl
@[simp] theorem State.diag_out : (s.diag c).out = s.out := by
  unfold State.diag; split <;> rfl
@[simp] theorem State.diag_dg : (s.diag c).dg = if s.cfg.diagEn then s.dg ++ [c] else s.dg := by
  unfold State.diag; split <;> rfl
@[simp] theorem State.diag_inbox : (s.diag c).inbox = s.inbox := by
  unfold State.diag; split <;> rfl
end

section
variable (s : State) (c : DiagCode)
@[simp] theorem State.raiseResync_cfg : (s.raiseResync c).cfg = s.cfg := by
  simp [State.raiseResync]
@[simp] theorem State.raiseResync_fs : (s.raiseResync c).fs = .awaitingHeader := by
  simp [State.raiseResync]
@[simp] theorem State.raiseResync_buf : (s.raiseResync c).buf = s.buf.drop 1 := by
  simp [State.raiseResync]
@[simp] theorem State.raiseResync_closed : (s.raiseResync c).closed = s.closed := by
  simp [State.raiseResync]
@[simp] theorem State.raiseResync_out : (s.raiseResync c).out = s.out := by
  simp [State.raiseResync]
@[simp] theorem State.raiseResync_dg : (s.raiseResync c).dg = if s.cfg.diagEn then s.dg ++ [c] else s.dg := by
  simp [State.raiseResync]
@[simp] theorem State.raiseResync_inbox : (s.raiseResync c).inbox = s.inbox := by
  simp [State.raiseResync]
end

/-- Two states with equal fields are equal. -/
theorem State.eq_of_fields {s t : State} (h₁ : s.cfg = t.cfg) (h₂ : s.fs = t.fs) (h₃ : s.buf = t.buf) (h₄ : s.closed = t.closed)
    (h₅ : s.out = t.out) (h₆ : s.dg = t.dg) (h₇ : s.inbox = t.inbox) : s = t := by
  cases s; cases t; simp_all

end Sys2Proof.Machine
end

