-- ==== Sys2Proof/Laws/Select.lean ====
section
/-! SUPPORT. What the selection of a transition says, and the one lemma about a decoder transition that later proofs cite: a decoder
transition is one of seven, each with its condition and its effect (`decoder_cases`). -/

namespace Sys2Proof.Machine

theorem State.whenSelected_next {s t u : State} {i : Instr} :
    s.whenSelected i u = .next t ↔ s.nextOp = i ∧ u = t := by
  unfold State.whenSelected
  split <;> simp_all

theorem State.whenSelected_of_eq {s : State} {i : Instr} (u : State) (h : s.nextOp = i) : s.whenSelected i u = .next u := by
  simp [State.whenSelected, h]

theorem State.whenSelected_of_ne {s : State} {i : Instr} (u : State) (h : s.nextOp ≠ i) :
    s.whenSelected i u = .refused .notEnabled := by
  simp [State.whenSelected, h]

/-- `next_op` reads `fs` and `B` only (R116). -/
theorem State.nextOp_congr {s t : State} (h₁ : s.fs = t.fs) (h₂ : s.buf = t.buf) : s.nextOp = t.nextOp := by
  simp [State.nextOp, h₁, h₂]

theorem State.quiescent_congr {s t : State} (h₁ : s.fs = t.fs) (h₂ : s.buf = t.buf) : s.quiescent = t.quiescent := by
  simp [State.quiescent, State.nextOp_congr h₁ h₂]

@[simp] theorem State.nextOp_popInbox (s : State) : s.popInbox.nextOp = s.nextOp := State.nextOp_congr rfl rfl

@[simp] theorem State.nextOp_offer (s : State) (e : EnvEvent) : (s.offer e).nextOp = s.nextOp := State.nextOp_congr rfl rfl

/-- Quiescence is ENOUGH = 0 (R118). -/
theorem State.quiescent_iff (s : State) : s.quiescent = true ↔ s.buf.length < s.need := by
  cases h : s.fs <;> simp only [State.quiescent, State.nextOp, State.need, h, isWait] <;>
    (repeat' split) <;> simp_all

theorem State.not_quiescent_iff (s : State) : s.quiescent = false ↔ s.need ≤ s.buf.length := by
  rw [← Bool.not_eq_true, State.quiescent_iff]; omega

/-- A known code is the code of its type, and no other (R69, R70). -/
@[simp] theorem ptype_typeCode (t : PacketType) : ptype (typeCode t) = some t := by cases t <;> rfl

theorem ptype_eq_some {b : Byte} {t : PacketType} (h : ptype b = some t) : b = typeCode t := by
  unfold ptype at h
  repeat' split at h
  all_goals first | (cases h; assumption) | simp_all

theorem Memory.markerAtFront_iff (b : Memory) : b.markerAtFront = true ↔ ∃ rest, b = 0xFD#8 :: 0xFC#8 :: rest := by
  unfold Memory.markerAtFront Memory.byteAt
  rcases b with _ | ⟨a, _ | ⟨c, rest⟩⟩ <;> simp [and_comm]

/-- The recorded fields are there exactly when the type byte is known and the length byte is there (R141). -/
theorem Memory.headerFields_eq_some {b : Memory} {t : PacketType} {l : Byte} :
    b.headerFields = some (t, l) ↔ b.declaredType = some (typeCode t) ∧ b.payloadLen = some l := by
  unfold Memory.headerFields
  cases h₁ : b.declaredType with
  | none => simp
  | some x =>
    cases h₂ : b.payloadLen with
    | none => simp
    | some y =>
      constructor
      · intro h
        obtain ⟨p, hp, he⟩ := Option.map_eq_some_iff.mp h
        cases he
        simp [ptype_eq_some hp]
      · rintro ⟨hx, hy⟩
        simp only [Option.some.injEq] at hx hy
        subst hx hy
        simp

/-- When HP.ACCEPT is selected its two fields are in the buffer. -/
theorem State.fields_of_accept {s : State} (h : s.nextOp = .hpAccept) :
    s.fs = .headerPending ∧ 5 ≤ s.buf.length ∧ s.buf.hdrOk = true ∧ ∃ t l, s.buf.headerFields = some (t, l) := by
  cases hf : s.fs <;> simp only [State.nextOp, hf] at h
  · repeat' split at h
    all_goals cases h
  · repeat' split at h
    all_goals first | (exfalso; cases h; done) | skip
    rename_i h₁ h₂ h₃
    have hlen : 5 ≤ s.buf.length := by simp only [Config.hdrLen] at h₁; omega
    refine ⟨rfl, hlen, by simpa using h₂, ?_⟩
    obtain ⟨x, hx, hk⟩ : ∃ x, s.buf.declaredType = some x ∧ known x = true := by
      unfold Memory.typeKnown at h₃
      cases hd : s.buf.declaredType with
      | none => simp [hd] at h₃
      | some x => exact ⟨x, rfl, by simpa [hd] using h₃⟩
    obtain ⟨p, hp⟩ := Option.isSome_iff_exists.mp hk
    have hl : ∃ l, s.buf.payloadLen = some l := by
      refine ⟨s.buf[2]'(by omega), ?_⟩
      simp only [Memory.payloadLen, Memory.byteAt, Config.lenOff]
      exact List.getElem?_eq_getElem (by omega)
    obtain ⟨l, hl⟩ := hl
    exact ⟨p, l, Memory.headerFields_eq_some.mpr ⟨by rw [hx, ptype_eq_some hp], hl⟩⟩
  · repeat' split at h
    all_goals cases h

/-- What the decoder does (R116): it waits and nothing changes, or takes one of the seven other transitions, each in its frame state and
with its byte count there. -/
theorem decoder_cases (s : State) : exec s.nextOp s = .next s.decoderStep ∧
    ((s.quiescent = true ∧ s.decoderStep = s) ∨
     (s.nextOp = .ahSync ∧ s.fs = .awaitingHeader ∧ (∃ rest, s.buf = 0xFD#8 :: 0xFC#8 :: rest) ∧
        s.decoderStep = (s.dropFront 1).pendHeader) ∨
     (s.nextOp = .ahSkip ∧ s.fs = .awaitingHeader ∧ 2 ≤ s.buf.length ∧ s.buf.markerAtFront = false ∧
        s.decoderStep = ((s.diag .badSync).dropFront 1).awaitHeader) ∨
     (s.nextOp = .hpAccept ∧ s.fs = .headerPending ∧ 5 ≤ s.buf.length ∧ s.buf.hdrOk = true ∧
        ∃ t l, s.buf.headerFields = some (t, l) ∧ s.decoderStep = s.recordHeader t l) ∨
     (s.nextOp = .hpBadtype ∧ s.fs = .headerPending ∧ 5 ≤ s.buf.length ∧ s.buf.hdrOk = true ∧ s.buf.typeKnown = false ∧
        s.decoderStep = s.raiseResync .badType) ∨
     (s.nextOp = .hpBadcrc ∧ s.fs = .headerPending ∧ 5 ≤ s.buf.length ∧ s.buf.hdrOk = false ∧
        s.decoderStep = s.raiseResync .badHdrCrc) ∨
     (∃ t l, s.fs = .payloadPending t l ∧ l.toNat + 8 ≤ s.buf.length ∧
        ((s.nextOp = .ppEmit ∧ s.buf.payOk l = true ∧
            s.decoderStep = ((s.dropFront (frameLen l)).emit t (s.buf.frame l)).awaitHeader) ∨
         (s.nextOp = .ppBadcrc ∧ s.buf.payOk l = false ∧ s.decoderStep = s.raiseResync .badPayloadCrc)))) := by
  have wait : ∀ {i}, s.nextOp = i → isWait i = true → exec i s = .next s → exec s.nextOp s = .next s.decoderStep ∧
      s.quiescent = true ∧ s.decoderStep = s := by
    intro i h₁ h₂ h₃
    have hd : s.decoderStep = s := by simp [State.decoderStep, h₁, h₃]
    exact ⟨by rw [hd, h₁, h₃], by simp [State.quiescent, h₁, h₂], hd⟩
  have act : ∀ {i t}, s.nextOp = i → exec i s = .next t → exec s.nextOp s = .next s.decoderStep ∧ s.decoderStep = t := by
    intro i t h₁ h₃
    have hd : s.decoderStep = t := by simp [State.decoderStep, h₁, h₃]
    exact ⟨by rw [hd, h₁, h₃], hd⟩
  cases hf : s.fs with
  | awaitingHeader =>
    by_cases h₁ : s.buf.length < 2
    · have hn : s.nextOp = .ahWait := by simp [State.nextOp, hf, Config.ahNeed, h₁]
      obtain ⟨a, b⟩ := wait hn rfl (State.whenSelected_of_eq s hn)
      exact ⟨a, .inl b⟩
    · cases h₂ : s.buf.markerAtFront with
      | true =>
        have hn : s.nextOp = .ahSync := by simp [State.nextOp, hf, Config.ahNeed, h₁, h₂]
        obtain ⟨a, b⟩ := act hn (State.whenSelected_of_eq _ hn)
        exact ⟨a, .inr (.inl ⟨hn, rfl, (Memory.markerAtFront_iff _).mp h₂, b⟩)⟩
      | false =>
        have hn : s.nextOp = .ahSkip := by simp [State.nextOp, hf, Config.ahNeed, h₁, h₂]
        obtain ⟨a, b⟩ := act hn (State.whenSelected_of_eq _ hn)
        exact ⟨a, .inr (.inr (.inl ⟨hn, rfl, by omega, rfl, b⟩))⟩
  | headerPending =>
    by_cases h₁ : s.buf.length < 5
    · have hn : s.nextOp = .hpWait := by simp [State.nextOp, hf, Config.hdrLen, h₁]
      obtain ⟨a, b⟩ := wait hn rfl (State.whenSelected_of_eq s hn)
      exact ⟨a, .inl b⟩
    · cases h₂ : s.buf.hdrOk with
      | false =>
        have hn : s.nextOp = .hpBadcrc := by simp [State.nextOp, hf, Config.hdrLen, h₁, h₂]
        obtain ⟨a, b⟩ := act hn (State.whenSelected_of_eq _ hn)
        exact ⟨a, by simp_all⟩
      | true =>
        cases h₃ : s.buf.typeKnown with
        | false =>
          have hn : s.nextOp = .hpBadtype := by simp [State.nextOp, hf, Config.hdrLen, h₁, h₂, h₃]
          obtain ⟨a, b⟩ := act hn (State.whenSelected_of_eq _ hn)
          exact ⟨a, by simp_all⟩
        | true =>
          have hn : s.nextOp = .hpAccept := by simp [State.nextOp, hf, Config.hdrLen, h₁, h₂, h₃]
          obtain ⟨-, hl, -, t, l, hfl⟩ := State.fields_of_accept hn
          have he : exec .hpAccept s = .next (s.recordHeader t l) := by
            simp [exec, execHpAccept, hfl, State.whenSelected, hn]
          obtain ⟨a, b⟩ := act hn he
          exact ⟨a, .inr (.inr (.inr (.inl ⟨hn, rfl, hl, rfl, t, l, hfl, b⟩)))⟩
  | payloadPending t l =>
    by_cases h₁ : s.buf.length < needLen l
    · have hn : s.nextOp = .ppWait := by simp [State.nextOp, hf, h₁]
      obtain ⟨a, b⟩ := wait hn rfl (State.whenSelected_of_eq s hn)
      exact ⟨a, .inl b⟩
    · have hl : l.toNat + 8 ≤ s.buf.length := by simp only [needLen, Config.needOverhead] at h₁; omega
      cases h₂ : s.buf.payOk l with
      | true =>
        have hn : s.nextOp = .ppEmit := by simp [State.nextOp, hf, h₁, h₂]
        have he : exec .ppEmit s = .next (((s.dropFront (frameLen l)).emit t (s.buf.frame l)).awaitHeader) := by
          simp [exec, execPpEmit, hf, State.whenSelected, hn]
        obtain ⟨a, b⟩ := act hn he
        exact ⟨a, .inr (.inr (.inr (.inr (.inr (.inr ⟨t, l, rfl, hl, .inl ⟨hn, h₂, b⟩⟩)))))⟩
      | false =>
        have hn : s.nextOp = .ppBadcrc := by simp [State.nextOp, hf, h₁, h₂]
        obtain ⟨a, b⟩ := act hn (State.whenSelected_of_eq _ hn)
        exact ⟨a, .inr (.inr (.inr (.inr (.inr (.inr ⟨t, l, rfl, hl, .inr ⟨hn, h₂, b⟩⟩)))))⟩

end Sys2Proof.Machine
end

