-- ==== Sys2Proof/Laws/Buffer.lean ====
section
/-! SUPPORT. What the predicates of Machine/Flags.lean say of a buffer written out as header, CRC-16 field, payload, guard byte and
rest (44_payload_pending.md R151). -/

namespace Sys2Proof.Machine

/-- A whole header region, byte by byte. -/
theorem Memory.exists_header {b : Memory} (h : 5 ≤ b.length) : ∃ m t l r c rest, b = m :: t :: l :: r :: c :: rest := by
  rcases b with _ | ⟨a, _ | ⟨b, _ | ⟨c, _ | ⟨d, _ | ⟨e, rest⟩⟩⟩⟩⟩ <;> simp at h ⊢

/-- `L + 8` bytes, part by part. -/
theorem Memory.exists_frame {b : Memory} {n : Nat} (h : n + 8 ≤ b.length) :
    ∃ head a c payload g rest, b = head ++ [a, c] ++ payload ++ g :: rest ∧ head.length = 5 ∧ payload.length = n := by
  obtain ⟨x0, x1, x2, x3, x4, r, rfl⟩ := Memory.exists_header (b := b) (by omega)
  rcases r with _ | ⟨a, _ | ⟨c, r⟩⟩
  · simp at h
  · simp at h
  · simp only [List.length_cons] at h
    have hd : r.drop n ≠ [] := by
      intro h'
      have := congrArg List.length h'
      simp only [List.length_drop, List.length_nil] at this
      omega
    obtain ⟨g, rest, hg⟩ := List.exists_cons_of_ne_nil hd
    refine ⟨[x0, x1, x2, x3, x4], a, c, r.take n, g, rest, by simp [← hg], rfl, ?_⟩
    simp only [List.length_take]
    omega

theorem Memory.header_eq_take (b : Memory) : b.header = b.take 5 := by
  simp [Memory.header, Memory.slice, Config.hdrLen]

@[simp] theorem Memory.hdrOk_cons (m t l r c : Byte) (rest : List Byte) :
    Memory.hdrOk (m :: t :: l :: r :: c :: rest) = (crc8 [m, t, l, r, c] == 0x00#8) := by
  simp [Memory.hdrOk, Memory.header, Memory.slice]

@[simp] theorem Memory.typeKnown_cons (m t : Byte) (rest : List Byte) : Memory.typeKnown (m :: t :: rest) = known t := by
  simp [Memory.typeKnown, Memory.declaredType, Memory.byteAt]

/-- The payload check reads the payload, then the two bytes of the CRC-16 field, and nothing else (R155). -/
theorem Memory.payOk_parts (head : List Byte) (a c : Byte) (payload rest : List Byte) (l : Byte) (h₁ : head.length = 5)
    (h₂ : payload.length = l.toNat) :
    Memory.payOk (head ++ [a, c] ++ payload ++ rest) l = (crc16 (payload ++ [a, c]) == 0x0000#16) := by
  obtain ⟨x0, x1, x2, x3, x4, r, rfl⟩ := Memory.exists_header (b := head) (by omega)
  obtain rfl : r = [] := by simpa using h₁
  have e₁ : Memory.crcField ([x0, x1, x2, x3, x4] ++ [a, c] ++ payload ++ rest) = [a, c] := by
    simp [Memory.crcField, Memory.slice, Config.crc16Off]
  have e₂ : Memory.payload ([x0, x1, x2, x3, x4] ++ [a, c] ++ payload ++ rest) l = payload := by
    have : 7 + l.toNat = payload.length + 7 := by omega
    simp [Memory.payload, Memory.slice, Config.payloadOff, this]
  simp only [Memory.payOk, e₁, e₂]

/-- A known type byte is the code of one of the five types (R70). -/
theorem known_iff_typeCode (t : Byte) : known t = true ↔ ∃ p, t = typeCode p := by
  unfold known
  rw [Option.isSome_iff_exists]
  exact ⟨fun ⟨p, h⟩ => ⟨p, ptype_eq_some h⟩, fun ⟨p, h⟩ => ⟨p, h ▸ ptype_typeCode p⟩⟩

@[simp] theorem known_typeCode (p : PacketType) : known (typeCode p) = true := (known_iff_typeCode _).mpr ⟨p, rfl⟩

/-- Room for a chunk, in numbers (R51). -/
theorem State.fits_iff (s : State) (x : List Byte) :
    s.fits x = true ↔ ∀ n, s.cfg.bufCap = some n → s.buf.length + x.length ≤ n := by
  unfold State.fits
  cases s.cfg.bufCap <;> simp

end Sys2Proof.Machine
end

