-- ==== Sys2Proof/Laws/Checksum.lean ====
section
/-! SUPPORT. Laws of one step of each checksum (40_crc.md R91, R96): each is linear over exclusive-or, and maps only zero to zero. -/

namespace Sys2Proof.Machine

theorem crc8Shift_eq (a : Byte) : crc8Shift a = a >>> 1 ^^^ (if a.getLsbD 0 then 0x8C#8 else 0x00#8) := by
  unfold crc8Shift
  split <;> simp

theorem crc16Shift_eq (a : Half) : crc16Shift a = a <<< 1 ^^^ (if a.getLsbD 15 then 0x1021#16 else 0x0000#16) := by
  unfold crc16Shift
  split <;> simp

theorem crc8Shift_xor (a b : Byte) : crc8Shift (a ^^^ b) = crc8Shift a ^^^ crc8Shift b := by
  have h : (if (a ^^^ b).getLsbD 0 then 0x8C#8 else 0x00#8) =
      (if a.getLsbD 0 then 0x8C#8 else 0x00#8) ^^^ (if b.getLsbD 0 then 0x8C#8 else 0x00#8) := by
    rw [BitVec.getLsbD_xor]
    cases a.getLsbD 0 <;> cases b.getLsbD 0 <;> rfl
  rw [crc8Shift_eq, crc8Shift_eq, crc8Shift_eq, h, BitVec.ushiftRight_xor_distrib]
  ac_rfl

theorem crc16Shift_xor (a b : Half) : crc16Shift (a ^^^ b) = crc16Shift a ^^^ crc16Shift b := by
  have h : (if (a ^^^ b).getLsbD 15 then 0x1021#16 else 0x0000#16) =
      (if a.getLsbD 15 then 0x1021#16 else 0x0000#16) ^^^ (if b.getLsbD 15 then 0x1021#16 else 0x0000#16) := by
    rw [BitVec.getLsbD_xor]
    cases a.getLsbD 15 <;> cases b.getLsbD 15 <;> rfl
  rw [crc16Shift_eq, crc16Shift_eq, crc16Shift_eq, h, BitVec.shiftLeft_xor_distrib]
  ac_rfl

/-- One byte of CRC-8 is linear in the register and the byte together. -/
theorem crc8Byte_xor (a b x y : Byte) : crc8Byte (a ^^^ b) (x ^^^ y) = crc8Byte a x ^^^ crc8Byte b y := by
  have h : (a ^^^ b) ^^^ (x ^^^ y) = (a ^^^ x) ^^^ (b ^^^ y) := by ac_rfl
  simp only [crc8Byte, h, crc8Shift_xor]

/-- One byte of CRC-16 is linear in the register and the byte together. -/
theorem crc16Byte_xor (a b : Half) (x y : Byte) : crc16Byte (a ^^^ b) (x ^^^ y) = crc16Byte a x ^^^ crc16Byte b y := by
  have h : (a ^^^ b) ^^^ ((x ^^^ y).setWidth 16 <<< 8) =
      (a ^^^ (x.setWidth 16 <<< 8)) ^^^ (b ^^^ (y.setWidth 16 <<< 8)) := by
    rw [BitVec.setWidth_xor, BitVec.shiftLeft_xor_distrib]
    ac_rfl
  simp only [crc16Byte, h, crc16Shift_xor]

theorem crc8Byte_eq_zero : ∀ a : Byte, crc8Byte a 0x00#8 = 0x00#8 → a = 0x00#8 := by decide +kernel

theorem crc16Shift_eq_zero {a : Half} (h : crc16Shift a = 0x0000#16) : a = 0x0000#16 := by
  rw [crc16Shift_eq] at h
  have top : a.getLsbD 15 = false := by
    have := congrArg (fun v => v.getLsbD 0) h
    cases ht : a.getLsbD 15 <;> simp [ht] at this ⊢
  rw [top] at h
  simp only [Bool.false_eq_true, if_false, BitVec.xor_zero] at h
  refine BitVec.eq_of_getLsbD_eq fun i hi => ?_
  rcases Nat.lt_or_ge i 15 with hl | hl
  · have := congrArg (fun v => v.getLsbD (i + 1)) h
    simpa [show i + 1 < 16 by omega, BitVec.getLsbD_eq_getElem hi] using this
  · obtain rfl : i = 15 := by omega
    simpa using top

theorem crc16Byte_eq_zero {a : Half} (h : crc16Byte a 0x00#8 = 0x0000#16) : a = 0x0000#16 := by
  have h₁ := h
  unfold crc16Byte at h₁
  iterate 8 replace h₁ := crc16Shift_eq_zero h₁
  simpa using h₁

/-- A low byte alone is moved up by a zero byte. -/
theorem crc16Byte_low : ∀ l : Byte, crc16Byte (l.setWidth 16) 0x00#8 = l.setWidth 16 <<< 8 := by decide +kernel

/-- A byte through CRC-8 is one table entry (R93). -/
theorem crc8Byte_eq_table (a x : Byte) : crc8Byte a x = crc8Table (a ^^^ x) := by
  simp [crc8Table, crc8, crc8From, crc8Byte]

theorem crc8From_append (a : Byte) (x y : List Byte) : crc8From a (x ++ y) = crc8From (crc8From a x) y := by
  simp [crc8From, List.foldl_append]

theorem crc16From_append (a : Half) (x y : List Byte) : crc16From a (x ++ y) = crc16From (crc16From a x) y := by
  simp [crc16From, List.foldl_append]

end Sys2Proof.Machine
end

