-- ==== Sys2Proof/Laws/Step.lean ====
section
/-! SUPPORT. What one step can do, said once (`step_of_inbox`, `step_cases`), and the invariant's parts. -/

namespace Sys2Proof.Machine

/-- A quiescent decoder's transition is a WAIT, and changes nothing (R118). -/
theorem State.decoderStep_of_quiescent {s : State} (h : s.quiescent = true) : s.decoderStep = s := by
  rcases (decoder_cases s).2 with h' | h' | h' | h' | h' | h' | ⟨t, l, -, -, h' | h'⟩
  · exact h'.2
  all_goals
    simp only [State.quiescent, h'.1, isWait] at h
    exact absurd h (by decide)

/-- One step, by what the environment offers. -/
theorem step_of_inbox (s : State) : step s = match s.inbox with
    | [] => .next s.decoderStep
    | .idle :: _ => .next s.popInbox.decoderStep
    | .push x :: _ => if s.quiescent then execPush x s.popInbox else .next s.decoderStep
    | .close :: _ => if s.quiescent then execClose s.popInbox else .next s.decoderStep
    | .reset :: _ => .next s.popInbox.resetBlock := by
  have hp : exec s.nextOp s.popInbox = .next s.popInbox.decoderStep := by
    simpa using (decoder_cases s.popInbox).1
  have hd := (decoder_cases s).1
  rcases hi : s.inbox with _ | ⟨e, rest⟩
  · simp only [step, State.fetch, hi]
    exact hd
  · cases e <;> simp only [step, State.fetch, hi]
    · exact hp
    · cases s.quiescent
      · exact hd
      · rfl
    · cases s.quiescent
      · exact hd
      · rfl
    · rfl

/-- Everything a step that answers a next state can have done: a RESET, an admitted PUSH, an admitted CLOSE, or a decoder transition. -/
theorem step_cases {s t : State} (h : step s = .next t) :
    (∃ rest, s.inbox = .reset :: rest ∧ t = s.popInbox.resetBlock) ∨
    (∃ x rest, s.inbox = .push x :: rest ∧ x ≠ [] ∧ s.closed = false ∧ s.quiescent = true ∧ s.fits x = true ∧
      t = s.popInbox.append x) ∨
    (∃ rest, s.inbox = .close :: rest ∧ s.closed = false ∧ s.quiescent = true ∧ t = s.popInbox.setClosed) ∨
    ((∀ rest, s.inbox ≠ .reset :: rest) ∧ ∃ u, (u = s ∨ u = s.popInbox) ∧ t = u.decoderStep) := by
  have hq : s.popInbox.quiescent = s.quiescent := State.quiescent_congr rfl rfl
  have hfit : ∀ x, s.popInbox.fits x = s.fits x := fun x => rfl
  rw [step_of_inbox] at h
  split at h
  · cases h
    exact .inr (.inr (.inr ⟨by simp_all, s, .inl rfl, rfl⟩))
  · cases h
    exact .inr (.inr (.inr ⟨by simp_all, _, .inr rfl, rfl⟩))
  · split at h
    · rename_i x rest he hq'
      simp only [execPush, hq, hfit] at h
      repeat' split at h
      all_goals cases h
      exact .inr (.inl ⟨x, rest, he, by simp_all, by simp_all, hq', by simp_all, rfl⟩)
    · cases h
      exact .inr (.inr (.inr ⟨by simp_all, s, .inl rfl, rfl⟩))
  · split at h
    · rename_i rest he hq'
      simp only [execClose, hq] at h
      repeat' split at h
      all_goals cases h
      exact .inr (.inr (.inl ⟨rest, he, by simp_all, hq', rfl⟩))
    · cases h
      exact .inr (.inr (.inr ⟨by simp_all, s, .inl rfl, rfl⟩))
  · rename_i rest he
    cases h
    exact .inl ⟨rest, he, rfl⟩

/-- What every decoder transition leaves alone: the parameters, `closed`, the environment's queue; and it never lengthens `B`. -/
theorem State.decoderStep_frame (s : State) : s.decoderStep.cfg = s.cfg ∧ s.decoderStep.closed = s.closed ∧
    s.decoderStep.inbox = s.inbox ∧ s.decoderStep.buf.length ≤ s.buf.length ∧
    (s.cfg.diagEn = false → s.decoderStep.dg = s.dg) := by
  rcases (decoder_cases s).2 with h | h | h | h | h | h | h
  · simp [h.2]
  · simp [h.2.2.2]
  · simp +contextual [h.2.2.2.2]
  · obtain ⟨-, -, -, -, _, _, -, he⟩ := h
    simp [he]
  · simp +contextual [h.2.2.2.2.2]
  · simp +contextual [h.2.2.2.2]
  · obtain ⟨t, l, -, -, ⟨-, -, he⟩ | ⟨-, -, he⟩⟩ := h <;> simp +contextual [he]

/-- The invariant, part by part. -/
theorem State.inv_iff (s : State) : s.inv = true ↔
    frameStateOk s = true ∧ (s.closed = true → s.quiescent = true) ∧ (∀ p ∈ s.out, packetOk p = true) ∧ withinCap s = true ∧
      (s.cfg.diagEn = false → s.dg = []) ∧ s.cfg.wf = true := by
  simp only [State.inv, Bool.and_eq_true, List.all_eq_true, and_assoc]
  cases s.closed <;> cases s.cfg.diagEn <;> simp

end Sys2Proof.Machine
end

