-- ==== Sys2Proof/Laws/Drain.lean ====
section
/-! SUPPORT. The drain loop unfolds like the loop of 41_stream_ops.md R117, its bound being large enough (`State.drain_unfold`), and
induction along it (`State.drain_induction`). -/

namespace Sys2Proof.Machine

/-- What every non-WAIT transition lowers. -/
def State.weight (s : State) : Nat :=
  2 * s.buf.length - 1 + (match s.fs with | .awaitingHeader => 0 | .headerPending => 1 | .payloadPending _ _ => 0)

/-- A non-WAIT transition leaves a byte in the buffer and lowers the weight. -/
theorem State.weight_decoderStep {s : State} (h : s.quiescent = false) :
    1 ≤ s.decoderStep.buf.length ∧ s.decoderStep.weight < s.weight := by
  rcases (decoder_cases s).2 with h' | h' | h' | h' | h' | h' | h'
  · simp [h] at h'
  · obtain ⟨-, hf, ⟨r, hr⟩, he⟩ := h'
    simp [he, hr, State.weight, hf]
    omega
  · obtain ⟨-, hf, hr, -, he⟩ := h'
    simp [he, State.weight, hf]
    omega
  · obtain ⟨-, hf, hr, -, p, l, -, he⟩ := h'
    simp [he, State.weight, hf]
    omega
  · obtain ⟨-, hf, hr, -, -, he⟩ := h'
    simp [he, State.weight, hf]
    omega
  · obtain ⟨-, hf, hr, -, he⟩ := h'
    simp [he, State.weight, hf]
    omega
  · obtain ⟨t, l, hf, hl, ⟨-, -, he⟩ | ⟨-, -, he⟩⟩ := h' <;>
      simp [he, State.weight, hf, frameLen, Config.frameOverhead] <;> omega

theorem State.quiescent_of_weight {s : State} (h : s.buf = [] ∨ s.weight = 0) : s.quiescent = true := by
  rw [State.quiescent_iff]
  have h' : s.buf.length = 0 ∨ s.weight = 0 := by rcases h with h | h <;> simp [h]
  cases hf : s.fs <;>
    simp only [State.need, hf, Config.ahNeed, Config.hdrLen, needLen, Config.needOverhead, State.weight] at h' ⊢ <;> omega

theorem State.drainWithin_of_quiescent {s : State} (n : Nat) (h : s.quiescent = true) :
    State.drainWithin n s = s ∧ State.drainOpsWithin n s = [] := by
  cases n <;> simp [State.drainWithin, State.drainOpsWithin, h]

/-- Any two bounds that reach the weight give the same drain. -/
theorem State.drainWithin_congr : ∀ (n m : Nat) (s : State), s.weight ≤ n → s.weight ≤ m →
    State.drainWithin n s = State.drainWithin m s ∧ State.drainOpsWithin n s = State.drainOpsWithin m s := by
  intro n
  induction n with
  | zero =>
    intro m s h₁ _
    simp [State.drainWithin_of_quiescent _ (State.quiescent_of_weight (.inr (Nat.le_zero.mp h₁)))]
  | succ n ih =>
    intro m s h₁ h₂
    cases hq : s.quiescent with
    | true => simp [State.drainWithin_of_quiescent _ hq]
    | false =>
      have hd := (State.weight_decoderStep hq).2
      cases m with
      | zero => omega
      | succ m =>
        simp only [State.drainWithin, State.drainOpsWithin, hq]
        have := ih m s.decoderStep (by omega) (by omega)
        simp [this]

/-- A bound that reaches the weight gives DRAIN. -/
theorem State.drain_eq_of_weight_le {n : Nat} {s : State} (h : s.weight ≤ n) :
    State.drainWithin n s = s.drain ∧ State.drainOpsWithin n s = s.drainOps := by
  by_cases hb : s.buf = []
  · have hq := State.quiescent_of_weight (s := s) (.inl hb)
    simp [State.drain, State.drainOps, State.drainWithin_of_quiescent _ hq]
  · refine State.drainWithin_congr _ _ s h ?_
    have : 1 ≤ s.buf.length := List.length_pos_iff.mpr hb
    simp only [State.weight, State.drainBound]
    split <;> omega

theorem State.drain_of_quiescent {s : State} (h : s.quiescent = true) : s.drain = s ∧ s.drainOps = [] := by
  simp [State.drain, State.drainOps, State.drainWithin_of_quiescent _ h]

/-- One turn of the loop (R117). -/
theorem State.drain_unfold {s : State} (h : s.quiescent = false) :
    s.drain = s.decoderStep.drain ∧ s.drainOps = s.nextOp :: s.decoderStep.drainOps := by
  have hd := (State.weight_decoderStep h).2
  obtain ⟨k, hk⟩ : ∃ k, s.weight = k + 1 := ⟨s.weight - 1, by omega⟩
  have a := State.drain_eq_of_weight_le (n := k + 1) (s := s) (by omega)
  have b := State.drain_eq_of_weight_le (n := k) (s := s.decoderStep) (by omega)
  simp [State.drainWithin, State.drainOpsWithin, h, b.1, b.2] at a
  exact ⟨a.1.symm, a.2.symm⟩

/-- Induction along a drain. -/
theorem State.drain_induction {P : State → Prop} (stop : ∀ s : State, s.quiescent = true → P s)
    (turn : ∀ s : State, s.quiescent = false → P s.decoderStep → P s) (s : State) : P s := by
  generalize hn : s.weight = n
  induction n using Nat.strong_induction_on generalizing s with
  | _ n ih =>
    cases h : s.quiescent with
    | true => exact stop s h
    | false => exact turn s h (ih _ (by rw [← hn]; exact (State.weight_decoderStep h).2) _ rfl)

end Sys2Proof.Machine
end

