-- ==== Sys2Proof/Laws/PerInstr.lean ====
section
/-! SUPPORT. Per-instruction families of LAWS.json: statements about an operation as syntax. -/

namespace Sys2Proof.Laws.Format

/-- The encoding's length, as its format says: one byte, and PUSH's chunk after it (R82, R112), one byte for a decision word (R80), five
for a header region (R62). -/
def width : Instr → Nat
  | .reset => 1
  | .push x => 1 + x.length
  | .close => 1
  | .ahWait => 1
  | .ahSync => 1
  | .ahSkip => 1
  | .hpWait => 1
  | .hpAccept => 1
  | .hpBadtype => 1
  | .hpBadcrc => 1
  | .ppWait => 1
  | .ppEmit => 1
  | .ppBadcrc => 1
  | .nonsense _ _ _ => 5
  | .imu _ _ _ => 5
  | .ahrs _ _ _ => 5
  | .insgps _ _ _ => 5
  | .raw _ _ _ => 5

/-- The encoding has its format's length, and its first byte is a header's `0xFC` or below 32. -/
def Statement (i : Instr) : Prop :=
  (encode i).length = width i ∧ ∃ b rest, encode i = b :: rest ∧ (b = 0xFC#8 ∨ b.toNat < 32)

theorem reset : Statement .reset := ⟨rfl, _, _, rfl, .inr (by decide)⟩
theorem push (x : List Byte) : Statement (.push x) := ⟨by simp [encode, width, Nat.add_comm], _, _, rfl, .inr (by decide)⟩
theorem close : Statement .close := ⟨rfl, _, _, rfl, .inr (by decide)⟩
theorem ahWait : Statement .ahWait := ⟨rfl, _, _, rfl, .inr (by decide)⟩
theorem ahSync : Statement .ahSync := ⟨rfl, _, _, rfl, .inr (by decide)⟩
theorem ahSkip : Statement .ahSkip := ⟨rfl, _, _, rfl, .inr (by decide)⟩
theorem hpWait : Statement .hpWait := ⟨rfl, _, _, rfl, .inr (by decide)⟩
theorem hpAccept : Statement .hpAccept := ⟨rfl, _, _, rfl, .inr (by decide)⟩
theorem hpBadtype : Statement .hpBadtype := ⟨rfl, _, _, rfl, .inr (by decide)⟩
theorem hpBadcrc : Statement .hpBadcrc := ⟨rfl, _, _, rfl, .inr (by decide)⟩
theorem ppWait : Statement .ppWait := ⟨rfl, _, _, rfl, .inr (by decide)⟩
theorem ppEmit : Statement .ppEmit := ⟨rfl, _, _, rfl, .inr (by decide)⟩
theorem ppBadcrc : Statement .ppBadcrc := ⟨rfl, _, _, rfl, .inr (by decide)⟩
theorem nonsense (l r c : Byte) : Statement (.nonsense l r c) := ⟨rfl, _, _, rfl, .inl rfl⟩
theorem imu (l r c : Byte) : Statement (.imu l r c) := ⟨rfl, _, _, rfl, .inl rfl⟩
theorem ahrs (l r c : Byte) : Statement (.ahrs l r c) := ⟨rfl, _, _, rfl, .inl rfl⟩
theorem insgps (l r c : Byte) : Statement (.insgps l r c) := ⟨rfl, _, _, rfl, .inl rfl⟩
theorem raw (l r c : Byte) : Statement (.raw l r c) := ⟨rfl, _, _, rfl, .inl rfl⟩

end Sys2Proof.Laws.Format
end

