-- ==== Sys2Proof/Tests/Slice0.lean ====
section
/-! SUPPORT. Tests. Expected values are those of 95_test_vectors.md (V1 to V91), of the tables of R93 and R97, or of the encodings of
30_encoding.md, as each comment says; and for every obligation with hypotheses a witness (`witness_…`) that meets them. -/

namespace Sys2Proof.Tests

-- One theorem at a time: a hundred kernel evaluations at once would each hold a thread's memory.
set_option Elab.async false

open Sys2Proof Sys2Proof.Machine

/-! ### Helpers -/

/-- The reset state with a frame state and a buffer. -/
def at_ (fs : FrameState) (buf : List Byte) : State := { State.reset with fs := fs, buf := buf }

def ah (buf : List Byte) : State := at_ .awaitingHeader buf

def hp (buf : List Byte) : State := at_ .headerPending buf

def pp (t : PacketType) (l : Byte) (buf : List Byte) : State := at_ (.payloadPending t l) buf

def answers (o : Outcome) (t : State) : Bool :=
  match o with
  | .next u => u == t
  | .fault _ => false
  | .refused _ => false

def refuses (o : Outcome) (r : Refusal) : Bool :=
  match o with
  | .next _ => false
  | .fault _ => false
  | .refused q => q == r

/-- V41: an IMU frame. -/
def v41 : List Byte := [0xFC#8, 0x40#8, 0x04#8, 0x01#8, 0x37#8, 0xC4#8, 0x57#8, 0xDE#8, 0xAD#8, 0xBE#8, 0xEF#8]

/-- V40: the empty Nonsense frame. -/
def v40 : List Byte := [0xFC#8, 0x00#8, 0x00#8, 0x00#8, 0x63#8, 0x00#8, 0x00#8]

/-- The 48 payload bytes of V44. -/
def v44Payload : List Byte :=
  [0x00#8, 0x00#8, 0x00#8, 0x3F#8, 0x00#8, 0x00#8, 0x80#8, 0xBE#8, 0x00#8, 0x00#8, 0x80#8, 0x3F#8] ++
  [0x00#8, 0x00#8, 0x00#8, 0x00#8, 0x00#8, 0x00#8, 0x00#8, 0x40#8, 0x00#8, 0x00#8, 0x80#8, 0xBF#8] ++
  [0x00#8, 0x00#8, 0x80#8, 0x3F#8, 0x00#8, 0x00#8, 0x00#8, 0x00#8, 0x00#8, 0x00#8, 0x00#8, 0x00#8] ++
  [0x00#8, 0x00#8, 0x00#8, 0x00#8, 0x78#8, 0x56#8, 0x34#8, 0x12#8, 0x00#8, 0x00#8, 0x00#8, 0x00#8]

/-! ### Well-formedness: an ill-formed term for each check -/

/-- `PUSH []` does not exist (R112, V56). -/
theorem test_wf_rejects_empty_chunk : Instr.wf (.push []) = false := by decide

/-- V36: V20 with one bit of the CRC byte flipped. -/
theorem test_wf_rejects_bad_imu_header : Instr.wf (.imu 0x04#8 0x01#8 0x36#8) = false := by decide +kernel

/-- A header's CRC byte is for its own type: V26's belongs to IMU only. -/
theorem test_wf_rejects_other_types : (Instr.wf (.nonsense 0x04#8 0x01#8 0x37#8) || Instr.wf (.ahrs 0x04#8 0x01#8 0x37#8) ||
    Instr.wf (.insgps 0x04#8 0x01#8 0x37#8) || Instr.wf (.raw 0x04#8 0x01#8 0x37#8)) = false := by decide +kernel

/-- V25, V26, V27, V29, V30 are well-formed headers of the five types. -/
theorem test_wf_accepts_spec_headers : (Instr.wf (.nonsense 0x00#8 0x00#8 0x63#8) && Instr.wf (.imu 0x04#8 0x01#8 0x37#8) &&
    Instr.wf (.raw 0x03#8 0x07#8 0xEB#8) && Instr.wf (.ahrs 0x30#8 0x00#8 0xD4#8) &&
    Instr.wf (.insgps 0x01#8 0x2A#8 0x84#8)) = true := by decide +kernel

/-- R51: 262 is too small a BUF_CAP, 263 and unbounded are legal. -/
theorem test_config_wf : (Config.wf { bufCap := some 262 }, Config.wf { bufCap := some 263 }, Config.wf {}) = (false, true, true) := by
  decide

/-! ### Decoding: a word of every row, bit by bit from the encodings of R62, R81, R82 -/

/-- event code 11 -/
theorem test_decode_reset : decode [0b00000011#8] = .ok .reset := rfl

/-- event code 10 -/
theorem test_decode_close : decode [0b00000010#8] = .ok .close := rfl

/-- fs 00, ENOUGH 0 -/
theorem test_decode_ahWait : decode [0b00000000#8] = .ok .ahWait := rfl

/-- fs 00, ENOUGH 1, OK 1 -/
theorem test_decode_ahSync : decode [0b00000110#8] = .ok .ahSync := rfl

/-- fs 00, ENOUGH 1, OK 0 -/
theorem test_decode_ahSkip : decode [0b00000100#8] = .ok .ahSkip := rfl

/-- fs 01, ENOUGH 0 -/
theorem test_decode_hpWait : decode [0b00001000#8] = .ok .hpWait := rfl

/-- fs 01, ENOUGH 1, OK 1, KNOWN 1 -/
theorem test_decode_hpAccept : decode [0b00001111#8] = .ok .hpAccept := rfl

/-- fs 01, ENOUGH 1, OK 1, KNOWN 0 -/
theorem test_decode_hpBadtype : decode [0b00001110#8] = .ok .hpBadtype := rfl

/-- fs 01, ENOUGH 1, OK 0 -/
theorem test_decode_hpBadcrc : decode [0b00001100#8] = .ok .hpBadcrc := rfl

/-- fs 10, ENOUGH 0 -/
theorem test_decode_ppWait : decode [0b00010000#8] = .ok .ppWait := rfl

/-- fs 10, ENOUGH 1, OK 1 -/
theorem test_decode_ppEmit : decode [0b00010110#8] = .ok .ppEmit := rfl

/-- fs 10, ENOUGH 1, OK 0 -/
theorem test_decode_ppBadcrc : decode [0b00010100#8] = .ok .ppBadcrc := rfl

/-- event code 01 with its chunk -/
theorem test_decode_push : decode [0b00000001#8, 0xFC#8, 0x40#8] = .ok (.push [0xFC#8, 0x40#8]) := rfl

/-- V25 -/
theorem test_decode_nonsense : decode [0xFC#8, 0x00#8, 0x00#8, 0x00#8, 0x63#8] = .ok (.nonsense 0x00#8 0x00#8 0x63#8) := rfl

/-- V26 -/
theorem test_decode_imu : decode [0xFC#8, 0x40#8, 0x04#8, 0x01#8, 0x37#8] = .ok (.imu 0x04#8 0x01#8 0x37#8) := rfl

/-- V29 -/
theorem test_decode_ahrs : decode [0xFC#8, 0x41#8, 0x30#8, 0x00#8, 0xD4#8] = .ok (.ahrs 0x30#8 0x00#8 0xD4#8) := rfl

/-- V30 -/
theorem test_decode_insgps : decode [0xFC#8, 0x42#8, 0x01#8, 0x2A#8, 0x84#8] = .ok (.insgps 0x01#8 0x2A#8 0x84#8) := rfl

/-- V27 -/
theorem test_decode_raw : decode [0xFC#8, 0x58#8, 0x03#8, 0x07#8, 0xEB#8] = .ok (.raw 0x03#8 0x07#8 0xEB#8) := rfl

/-- The word of V27 as the table numbers it: `B[0]` in bits 39 to 32 (R62). -/
theorem test_table_word_raw : decodeTableWord 40 0xFC580307EB = some (.raw 0x03#8 0x07#8 0xEB#8) := by decide

/-- fs = 11 is no state (R83); 0x50 is no known type (V28); 0x20 is unassigned; event code 00 is no event (R82). -/
theorem test_decode_rejects : decode [0b00011000#8] = .error .noSuchFrameState ∧
    decode [0xFC#8, 0x50#8, 0x02#8, 0x00#8, 0x89#8] = .error .unknownType ∧ decode [0x20#8] = .error .unassigned ∧
    decodeEvent 0b00#2 [] = .error .noEvent ∧ decode [] = .error .empty := ⟨rfl, rfl, rfl, rfl, rfl⟩

/-- The 251 codes of R76 and the 5 of R71 to R75. -/
theorem test_known_codes : (List.range 256).filter (fun n => known (BitVec.ofNat 8 n)) = [0x00, 0x40, 0x41, 0x42, 0x58] := by
  decide +kernel

/-! ### Checksums: the vectors of 95_test_vectors.md section 2 and the tables of R93 and R97 -/

/-- V2, V4, V5, V6, V7, V8, V9, V10, V12, V14, V15 -/
theorem test_crc8_vectors :
    crc8 [0x00#8] = 0x00#8 ∧
    crc8 [0x01#8] = 0x5E#8 ∧
    crc8 [0x80#8] = 0x8C#8 ∧
    crc8 [0xFF#8] = 0x35#8 ∧
    crc8 [0xFC#8] = 0xD7#8 ∧
    crc8 [0x41#8] = 0x18#8 ∧
    crc8 [0x01#8, 0x00#8] = 0xC4#8 ∧
    crc8 [0x00#8, 0x00#8, 0x01#8] = 0x5E#8 ∧
    crc8 [0xFD#8, 0xFC#8, 0x41#8] = 0x51#8 ∧
    crc8 [0xFC#8, 0x41#8, 0x30#8, 0x00#8] = 0xD4#8 ∧
    crc8 [0x31#8, 0x32#8, 0x33#8, 0x34#8, 0x35#8, 0x36#8, 0x37#8, 0x38#8, 0x39#8] = 0xA1#8 := by
  decide +kernel

/-- V20, V31, V32, V28, V35, V36, V37 -/
theorem test_crc8_headers :
    crc8 [0xFC#8, 0x40#8, 0x04#8, 0x01#8, 0x37#8] = 0x00#8 ∧
    crc8 [0xFC#8, 0x58#8, 0xFF#8, 0x00#8] = 0xBC#8 ∧
    crc8 [0xFC#8, 0x40#8, 0xFF#8, 0x00#8] = 0xD3#8 ∧
    crc8 [0xFC#8, 0x50#8, 0x02#8, 0x00#8] = 0x89#8 ∧
    crc8 [0xFC#8, 0x40#8, 0x14#8, 0x01#8, 0x37#8] = 0x4A#8 ∧
    crc8 [0xFC#8, 0x40#8, 0x04#8, 0x01#8, 0x36#8] = 0x5E#8 ∧
    crc8 [0xFC#8, 0x41#8, 0xFD#8, 0xFC#8, 0x00#8] = 0xA1#8 := by
  decide +kernel

/-- V3, V4, V5, V6, V9, V11, V12, V13, V14, V15, V16 -/
theorem test_crc16_vectors :
    crc16 [0x00#8, 0x00#8, 0x00#8] = 0x0000#16 ∧
    crc16 [0x01#8] = 0x1021#16 ∧
    crc16 [0x80#8] = 0x9188#16 ∧
    crc16 [0xFF#8] = 0x1EF0#16 ∧
    crc16 [0x01#8, 0x00#8] = 0x3331#16 ∧
    crc16 [0x01#8, 0x02#8] = 0x1373#16 ∧
    crc16 [0xFD#8, 0xFC#8, 0x41#8] = 0xAF4A#16 ∧
    crc16 [0xDE#8, 0xAD#8, 0xBE#8, 0xEF#8] = 0xC457#16 ∧
    crc16 [0xFC#8, 0x41#8, 0x30#8, 0x00#8] = 0xFF77#16 ∧
    crc16 [0x31#8, 0x32#8, 0x33#8, 0x34#8, 0x35#8, 0x36#8, 0x37#8, 0x38#8, 0x39#8] = 0x31C3#16 ∧
    crc16 [0xFF#8, 0xFF#8] = 0x1D0F#16 := by
  decide +kernel

/-- V21, V38, V39, V39b, V39c -/
theorem test_crc16_fields :
    crc16 [0xDE#8, 0xAD#8, 0xBE#8, 0xEF#8, 0xC4#8, 0x57#8] = 0x0000#16 ∧
    crc16 [0xDE#8, 0xAC#8, 0xBE#8, 0xEF#8, 0xC4#8, 0x57#8] = 0xAA51#16 ∧
    crc16 [0xDE#8, 0xAD#8, 0xBE#8, 0xEF#8, 0x57#8, 0xC4#8] = 0xFE62#16 ∧
    crc16 [0xFD#8, 0xFC#8, 0x41#8, 0x2F#8, 0x4A#8] = 0x1B98#16 ∧
    crc16 [0x31#8, 0x32#8, 0x33#8, 0x34#8, 0x35#8, 0x36#8, 0x37#8, 0x38#8, 0x39#8, 0xC3#8, 0x31#8] = 0xBAFE#16 := by
  decide +kernel

/-- The bit-by-bit traces of V4. -/
theorem test_crc_shift_traces :
    [crc8Shift 0x01#8, crc8Shift 0x8C#8, crc8Shift 0x46#8, crc8Shift 0x23#8, crc8Shift 0x9D#8, crc8Shift 0xC2#8, crc8Shift 0x61#8,
      crc8Shift 0xBC#8] = [0x8C#8, 0x46#8, 0x23#8, 0x9D#8, 0xC2#8, 0x61#8, 0xBC#8, 0x5E#8] ∧
    crc16Shift 0x4000#16 = 0x8000#16 ∧ crc16Shift 0x8000#16 = 0x1021#16 := by
  decide +kernel

/-- V44's payload checksum. -/
theorem test_crc16_v44 : crc16 v44Payload = 0xA0A7#16 := by decide +kernel

/-- V41 as a frame (R85). -/
theorem test_frameOf_v41 : frameOf 0x40#8 0x01#8 [0xDE#8, 0xAD#8, 0xBE#8, 0xEF#8] = v41 := by decide +kernel

theorem test_crc8_table_1 :
    ((List.range 64).map (fun i => crc8Table (BitVec.ofNat 8 (0 + i)))) =
      [0x00#8, 0x5E#8, 0xBC#8, 0xE2#8, 0x61#8, 0x3F#8, 0xDD#8, 0x83#8, 0xC2#8, 0x9C#8, 0x7E#8, 0x20#8, 0xA3#8, 0xFD#8, 0x1F#8, 0x41#8] ++
      [0x9D#8, 0xC3#8, 0x21#8, 0x7F#8, 0xFC#8, 0xA2#8, 0x40#8, 0x1E#8, 0x5F#8, 0x01#8, 0xE3#8, 0xBD#8, 0x3E#8, 0x60#8, 0x82#8, 0xDC#8] ++
      [0x23#8, 0x7D#8, 0x9F#8, 0xC1#8, 0x42#8, 0x1C#8, 0xFE#8, 0xA0#8, 0xE1#8, 0xBF#8, 0x5D#8, 0x03#8, 0x80#8, 0xDE#8, 0x3C#8, 0x62#8] ++
      [0xBE#8, 0xE0#8, 0x02#8, 0x5C#8, 0xDF#8, 0x81#8, 0x63#8, 0x3D#8, 0x7C#8, 0x22#8, 0xC0#8, 0x9E#8, 0x1D#8, 0x43#8, 0xA1#8, 0xFF#8] := by
  decide +kernel

theorem test_crc8_table_2 :
    ((List.range 64).map (fun i => crc8Table (BitVec.ofNat 8 (64 + i)))) =
      [0x46#8, 0x18#8, 0xFA#8, 0xA4#8, 0x27#8, 0x79#8, 0x9B#8, 0xC5#8, 0x84#8, 0xDA#8, 0x38#8, 0x66#8, 0xE5#8, 0xBB#8, 0x59#8, 0x07#8] ++
      [0xDB#8, 0x85#8, 0x67#8, 0x39#8, 0xBA#8, 0xE4#8, 0x06#8, 0x58#8, 0x19#8, 0x47#8, 0xA5#8, 0xFB#8, 0x78#8, 0x26#8, 0xC4#8, 0x9A#8] ++
      [0x65#8, 0x3B#8, 0xD9#8, 0x87#8, 0x04#8, 0x5A#8, 0xB8#8, 0xE6#8, 0xA7#8, 0xF9#8, 0x1B#8, 0x45#8, 0xC6#8, 0x98#8, 0x7A#8, 0x24#8] ++
      [0xF8#8, 0xA6#8, 0x44#8, 0x1A#8, 0x99#8, 0xC7#8, 0x25#8, 0x7B#8, 0x3A#8, 0x64#8, 0x86#8, 0xD8#8, 0x5B#8, 0x05#8, 0xE7#8, 0xB9#8] := by
  decide +kernel

theorem test_crc8_table_3 :
    ((List.range 64).map (fun i => crc8Table (BitVec.ofNat 8 (128 + i)))) =
      [0x8C#8, 0xD2#8, 0x30#8, 0x6E#8, 0xED#8, 0xB3#8, 0x51#8, 0x0F#8, 0x4E#8, 0x10#8, 0xF2#8, 0xAC#8, 0x2F#8, 0x71#8, 0x93#8, 0xCD#8] ++
      [0x11#8, 0x4F#8, 0xAD#8, 0xF3#8, 0x70#8, 0x2E#8, 0xCC#8, 0x92#8, 0xD3#8, 0x8D#8, 0x6F#8, 0x31#8, 0xB2#8, 0xEC#8, 0x0E#8, 0x50#8] ++
      [0xAF#8, 0xF1#8, 0x13#8, 0x4D#8, 0xCE#8, 0x90#8, 0x72#8, 0x2C#8, 0x6D#8, 0x33#8, 0xD1#8, 0x8F#8, 0x0C#8, 0x52#8, 0xB0#8, 0xEE#8] ++
      [0x32#8, 0x6C#8, 0x8E#8, 0xD0#8, 0x53#8, 0x0D#8, 0xEF#8, 0xB1#8, 0xF0#8, 0xAE#8, 0x4C#8, 0x12#8, 0x91#8, 0xCF#8, 0x2D#8, 0x73#8] := by
  decide +kernel

theorem test_crc8_table_4 :
    ((List.range 64).map (fun i => crc8Table (BitVec.ofNat 8 (192 + i)))) =
      [0xCA#8, 0x94#8, 0x76#8, 0x28#8, 0xAB#8, 0xF5#8, 0x17#8, 0x49#8, 0x08#8, 0x56#8, 0xB4#8, 0xEA#8, 0x69#8, 0x37#8, 0xD5#8, 0x8B#8] ++
      [0x57#8, 0x09#8, 0xEB#8, 0xB5#8, 0x36#8, 0x68#8, 0x8A#8, 0xD4#8, 0x95#8, 0xCB#8, 0x29#8, 0x77#8, 0xF4#8, 0xAA#8, 0x48#8, 0x16#8] ++
      [0xE9#8, 0xB7#8, 0x55#8, 0x0B#8, 0x88#8, 0xD6#8, 0x34#8, 0x6A#8, 0x2B#8, 0x75#8, 0x97#8, 0xC9#8, 0x4A#8, 0x14#8, 0xF6#8, 0xA8#8] ++
      [0x74#8, 0x2A#8, 0xC8#8, 0x96#8, 0x15#8, 0x4B#8, 0xA9#8, 0xF7#8, 0xB6#8, 0xE8#8, 0x0A#8, 0x54#8, 0xD7#8, 0x89#8, 0x6B#8, 0x35#8] := by
  decide +kernel

theorem test_crc16_table_1 :
    ((List.range 64).map (fun i => crc16Table (BitVec.ofNat 8 (0 + i)))) =
      [0x0000#16, 0x1021#16, 0x2042#16, 0x3063#16, 0x4084#16, 0x50A5#16, 0x60C6#16, 0x70E7#16] ++
      [0x8108#16, 0x9129#16, 0xA14A#16, 0xB16B#16, 0xC18C#16, 0xD1AD#16, 0xE1CE#16, 0xF1EF#16] ++
      [0x1231#16, 0x0210#16, 0x3273#16, 0x2252#16, 0x52B5#16, 0x4294#16, 0x72F7#16, 0x62D6#16] ++
      [0x9339#16, 0x8318#16, 0xB37B#16, 0xA35A#16, 0xD3BD#16, 0xC39C#16, 0xF3FF#16, 0xE3DE#16] ++
      [0x2462#16, 0x3443#16, 0x0420#16, 0x1401#16, 0x64E6#16, 0x74C7#16, 0x44A4#16, 0x5485#16] ++
      [0xA56A#16, 0xB54B#16, 0x8528#16, 0x9509#16, 0xE5EE#16, 0xF5CF#16, 0xC5AC#16, 0xD58D#16] ++
      [0x3653#16, 0x2672#16, 0x1611#16, 0x0630#16, 0x76D7#16, 0x66F6#16, 0x5695#16, 0x46B4#16] ++
      [0xB75B#16, 0xA77A#16, 0x9719#16, 0x8738#16, 0xF7DF#16, 0xE7FE#16, 0xD79D#16, 0xC7BC#16] := by
  decide +kernel

theorem test_crc16_table_2 :
    ((List.range 64).map (fun i => crc16Table (BitVec.ofNat 8 (64 + i)))) =
      [0x48C4#16, 0x58E5#16, 0x6886#16, 0x78A7#16, 0x0840#16, 0x1861#16, 0x2802#16, 0x3823#16] ++
      [0xC9CC#16, 0xD9ED#16, 0xE98E#16, 0xF9AF#16, 0x8948#16, 0x9969#16, 0xA90A#16, 0xB92B#16] ++
      [0x5AF5#16, 0x4AD4#16, 0x7AB7#16, 0x6A96#16, 0x1A71#16, 0x0A50#16, 0x3A33#16, 0x2A12#16] ++
      [0xDBFD#16, 0xCBDC#16, 0xFBBF#16, 0xEB9E#16, 0x9B79#16, 0x8B58#16, 0xBB3B#16, 0xAB1A#16] ++
      [0x6CA6#16, 0x7C87#16, 0x4CE4#16, 0x5CC5#16, 0x2C22#16, 0x3C03#16, 0x0C60#16, 0x1C41#16] ++
      [0xEDAE#16, 0xFD8F#16, 0xCDEC#16, 0xDDCD#16, 0xAD2A#16, 0xBD0B#16, 0x8D68#16, 0x9D49#16] ++
      [0x7E97#16, 0x6EB6#16, 0x5ED5#16, 0x4EF4#16, 0x3E13#16, 0x2E32#16, 0x1E51#16, 0x0E70#16] ++
      [0xFF9F#16, 0xEFBE#16, 0xDFDD#16, 0xCFFC#16, 0xBF1B#16, 0xAF3A#16, 0x9F59#16, 0x8F78#16] := by
  decide +kernel

theorem test_crc16_table_3 :
    ((List.range 64).map (fun i => crc16Table (BitVec.ofNat 8 (128 + i)))) =
      [0x9188#16, 0x81A9#16, 0xB1CA#16, 0xA1EB#16, 0xD10C#16, 0xC12D#16, 0xF14E#16, 0xE16F#16] ++
      [0x1080#16, 0x00A1#16, 0x30C2#16, 0x20E3#16, 0x5004#16, 0x4025#16, 0x7046#16, 0x6067#16] ++
      [0x83B9#16, 0x9398#16, 0xA3FB#16, 0xB3DA#16, 0xC33D#16, 0xD31C#16, 0xE37F#16, 0xF35E#16] ++
      [0x02B1#16, 0x1290#16, 0x22F3#16, 0x32D2#16, 0x4235#16, 0x5214#16, 0x6277#16, 0x7256#16] ++
      [0xB5EA#16, 0xA5CB#16, 0x95A8#16, 0x8589#16, 0xF56E#16, 0xE54F#16, 0xD52C#16, 0xC50D#16] ++
      [0x34E2#16, 0x24C3#16, 0x14A0#16, 0x0481#16, 0x7466#16, 0x6447#16, 0x5424#16, 0x4405#16] ++
      [0xA7DB#16, 0xB7FA#16, 0x8799#16, 0x97B8#16, 0xE75F#16, 0xF77E#16, 0xC71D#16, 0xD73C#16] ++
      [0x26D3#16, 0x36F2#16, 0x0691#16, 0x16B0#16, 0x6657#16, 0x7676#16, 0x4615#16, 0x5634#16] := by
  decide +kernel

theorem test_crc16_table_4 :
    ((List.range 64).map (fun i => crc16Table (BitVec.ofNat 8 (192 + i)))) =
      [0xD94C#16, 0xC96D#16, 0xF90E#16, 0xE92F#16, 0x99C8#16, 0x89E9#16, 0xB98A#16, 0xA9AB#16] ++
      [0x5844#16, 0x4865#16, 0x7806#16, 0x6827#16, 0x18C0#16, 0x08E1#16, 0x3882#16, 0x28A3#16] ++
      [0xCB7D#16, 0xDB5C#16, 0xEB3F#16, 0xFB1E#16, 0x8BF9#16, 0x9BD8#16, 0xABBB#16, 0xBB9A#16] ++
      [0x4A75#16, 0x5A54#16, 0x6A37#16, 0x7A16#16, 0x0AF1#16, 0x1AD0#16, 0x2AB3#16, 0x3A92#16] ++
      [0xFD2E#16, 0xED0F#16, 0xDD6C#16, 0xCD4D#16, 0xBDAA#16, 0xAD8B#16, 0x9DE8#16, 0x8DC9#16] ++
      [0x7C26#16, 0x6C07#16, 0x5C64#16, 0x4C45#16, 0x3CA2#16, 0x2C83#16, 0x1CE0#16, 0x0CC1#16] ++
      [0xEF1F#16, 0xFF3E#16, 0xCF5D#16, 0xDF7C#16, 0xAF9B#16, 0xBFBA#16, 0x8FD9#16, 0x9FF8#16] ++
      [0x6E17#16, 0x7E36#16, 0x4E55#16, 0x5E74#16, 0x2E93#16, 0x3EB2#16, 0x0ED1#16, 0x1EF0#16] := by
  decide +kernel

/-! ### One step each: the vectors of 95_test_vectors.md section 4 -/

/-- V50 -/
theorem test_reset_clears : answers (exec .reset
    { pp .imu 0x04#8 v41 with closed := true, out := [⟨.raw, v40⟩], dg := [.badSync] })
    State.reset = true := by decide +kernel

/-- V51 -/
theorem test_reset_idempotent : answers (exec .reset
    State.reset)
    State.reset = true := by decide +kernel

/-- V52 -/
theorem test_push_appends : answers (exec (.push [0xFC#8, 0x40#8])
    (ah [0xFD#8]))
    (ah [0xFD#8, 0xFC#8, 0x40#8]) = true := by decide +kernel

/-- V55 -/
theorem test_push_closed : refuses (exec (.push [0x00#8])
    { State.reset with closed := true })
    .inputClosed = true := by decide +kernel

/-- V54 -/
theorem test_close_sets : answers (exec .close
    (pp .imu 0x04#8 v41))
    { pp .imu 0x04#8 v41 with closed := true } = true := by decide +kernel

/-- V57 -/
theorem test_close_not_quiescent : refuses (exec .close
    (ah [0xFD#8, 0xFC#8]))
    .notQuiescent = true := by decide +kernel

/-- V61 -/
theorem test_ahWait_lone_byte : answers (exec .ahWait
    (ah [0x11#8]))
    (ah [0x11#8]) = true := by decide +kernel

/-- V63: AH.SYNC is selected -/
theorem test_ahWait_refused : refuses (exec .ahWait
    (ah [0xFD#8, 0xFC#8]))
    .notEnabled = true := by decide +kernel

/-- V64 -/
theorem test_ahSync_v64 : answers (exec .ahSync
    (ah [0xFD#8, 0xFC#8, 0x40#8]))
    (hp [0xFC#8, 0x40#8]) = true := by decide +kernel

/-- V69: no marker -/
theorem test_ahSync_refused : refuses (exec .ahSync
    (ah [0xFC#8, 0xFC#8]))
    .notEnabled = true := by decide +kernel

/-- V66 -/
theorem test_ahSkip_overlap : answers (exec .ahSkip
    (ah [0xFD#8, 0xFD#8, 0xFC#8]))
    { ah [0xFD#8, 0xFC#8] with dg := [.badSync] } = true := by decide +kernel

/-- V68 -/
theorem test_ahSkip_v68 : answers (exec .ahSkip
    (ah [0xFD#8, 0x00#8]))
    { ah [0x00#8] with dg := [.badSync] } = true := by decide +kernel

/-- V71: the unknown type is not examined yet -/
theorem test_hpWait_v71 : answers (exec .hpWait
    (hp [0xFC#8, 0x50#8, 0x02#8, 0x00#8]))
    (hp [0xFC#8, 0x50#8, 0x02#8, 0x00#8]) = true := by decide +kernel

/-- V73: five bytes are enough -/
theorem test_hpWait_refused : refuses (exec .hpWait
    (hp [0xFC#8, 0x00#8, 0x00#8, 0x00#8, 0x63#8]))
    .notEnabled = true := by decide +kernel

/-- V72 -/
theorem test_hpAccept_v72 : answers (exec .hpAccept
    (hp [0xFC#8, 0x40#8, 0x04#8, 0x01#8, 0x37#8, 0xC4#8]))
    (pp .imu 0x04#8 [0xFC#8, 0x40#8, 0x04#8, 0x01#8, 0x37#8, 0xC4#8]) = true := by decide +kernel

/-- V74 -/
theorem test_hpAccept_v74 : answers (exec .hpAccept
    (hp [0xFC#8, 0x58#8, 0xFF#8, 0x00#8, 0xBC#8]))
    (pp .raw 0xFF#8 [0xFC#8, 0x58#8, 0xFF#8, 0x00#8, 0xBC#8]) = true := by decide +kernel

/-- V75 -/
theorem test_hpBadtype_v75 : answers (exec .hpBadtype
    (hp [0xFC#8, 0x50#8, 0x02#8, 0x00#8, 0x89#8]))
    { ah [0x50#8, 0x02#8, 0x00#8, 0x89#8] with dg := [.badType] } = true := by decide +kernel

/-- V77: a bad CRC hides the type -/
theorem test_hpBadtype_refused : refuses (exec .hpBadtype
    (hp [0xFC#8, 0x50#8, 0x02#8, 0x00#8, 0x88#8]))
    .notEnabled = true := by decide +kernel

/-- V77: the CRC is judged before the type -/
theorem test_hpBadcrc_v77 : answers (exec .hpBadcrc
    (hp [0xFC#8, 0x50#8, 0x02#8, 0x00#8, 0x88#8]))
    { ah [0x50#8, 0x02#8, 0x00#8, 0x88#8] with dg := [.badHdrCrc] } = true := by decide +kernel

/-- V79: the reserved byte is covered -/
theorem test_hpBadcrc_v79 : answers (exec .hpBadcrc
    (hp [0xFC#8, 0x40#8, 0x04#8, 0x02#8, 0x37#8]))
    { ah [0x40#8, 0x04#8, 0x02#8, 0x37#8] with dg := [.badHdrCrc] } = true := by decide +kernel

/-- V81: the frame is complete, the guard byte missing -/
theorem test_ppWait_v81 : answers (exec .ppWait
    (pp .imu 0x04#8 v41))
    (pp .imu 0x04#8 v41) = true := by decide +kernel

/-- V85 -/
theorem test_ppWait_v85 : answers (exec .ppWait
    (pp .nonsense 0x00#8 v40))
    (pp .nonsense 0x00#8 v40) = true := by decide +kernel

/-- V83 -/
theorem test_ppEmit_v83 : answers (exec .ppEmit
    (pp .imu 0x04#8 (v41 ++ [0x00#8, 0x11#8, 0x22#8])))
    { ah [0x00#8, 0x11#8, 0x22#8] with out := [⟨.imu, v41⟩] } = true := by decide +kernel

/-- V84: L = 0 -/
theorem test_ppEmit_v84 : answers (exec .ppEmit
    (pp .nonsense 0x00#8 (v40 ++ [0xFD#8])))
    { ah [0xFD#8] with out := [⟨.nonsense, v40⟩] } = true := by decide +kernel

/-- V87: the field stored low byte first -/
theorem test_ppBadcrc_v87 : answers (exec .ppBadcrc
    (pp .imu 0x04#8 [0xFC#8, 0x40#8, 0x04#8, 0x01#8, 0x37#8, 0x57#8, 0xC4#8, 0xDE#8, 0xAD#8, 0xBE#8, 0xEF#8, 0xFD#8]))
    { ah [0x40#8, 0x04#8, 0x01#8, 0x37#8, 0x57#8, 0xC4#8, 0xDE#8, 0xAD#8, 0xBE#8, 0xEF#8, 0xFD#8] with dg := [.badPayloadCrc] } = true := by decide +kernel

/-- V88 -/
theorem test_ppBadcrc_v88 : answers (exec .ppBadcrc
    (pp .nonsense 0x00#8 [0xFC#8, 0x00#8, 0x00#8, 0x00#8, 0x63#8, 0x00#8, 0x01#8, 0xFD#8]))
    { ah [0x00#8, 0x00#8, 0x00#8, 0x63#8, 0x00#8, 0x01#8, 0xFD#8] with dg := [.badPayloadCrc] } = true := by decide +kernel

/-- V73 -/
theorem test_nonsense_v73 : answers (exec (.nonsense 0x00#8 0x00#8 0x63#8)
    (hp [0xFC#8, 0x00#8, 0x00#8, 0x00#8, 0x63#8]))
    (pp .nonsense 0x00#8 [0xFC#8, 0x00#8, 0x00#8, 0x00#8, 0x63#8]) = true := by decide +kernel

/-- V72 -/
theorem test_imu_v72 : answers (exec (.imu 0x04#8 0x01#8 0x37#8)
    (hp [0xFC#8, 0x40#8, 0x04#8, 0x01#8, 0x37#8]))
    (pp .imu 0x04#8 [0xFC#8, 0x40#8, 0x04#8, 0x01#8, 0x37#8]) = true := by decide +kernel

/-- V79: a corrupt header -/
theorem test_imu_v79 : answers (exec (.imu 0x04#8 0x02#8 0x37#8)
    (hp [0xFC#8, 0x40#8, 0x04#8, 0x02#8, 0x37#8]))
    { ah [0x40#8, 0x04#8, 0x02#8, 0x37#8] with dg := [.badHdrCrc] } = true := by decide +kernel

/-- V29 -/
theorem test_ahrs_v29 : answers (exec (.ahrs 0x30#8 0x00#8 0xD4#8)
    (hp [0xFC#8, 0x41#8, 0x30#8, 0x00#8, 0xD4#8]))
    (pp .ahrs 0x30#8 [0xFC#8, 0x41#8, 0x30#8, 0x00#8, 0xD4#8]) = true := by decide +kernel

/-- V30 -/
theorem test_insgps_v30 : answers (exec (.insgps 0x01#8 0x2A#8 0x84#8)
    (hp [0xFC#8, 0x42#8, 0x01#8, 0x2A#8, 0x84#8]))
    (pp .insGps 0x01#8 [0xFC#8, 0x42#8, 0x01#8, 0x2A#8, 0x84#8]) = true := by decide +kernel

/-- V74: any length -/
theorem test_raw_v74 : answers (exec (.raw 0xFF#8 0x00#8 0xBC#8)
    (hp [0xFC#8, 0x58#8, 0xFF#8, 0x00#8, 0xBC#8]))
    (pp .raw 0xFF#8 [0xFC#8, 0x58#8, 0xFF#8, 0x00#8, 0xBC#8]) = true := by decide +kernel

/-- V91: the AHRS frame with its guard byte: the 48 payload bytes come out unchanged behind the header and the CRC-16 field. -/
theorem test_step_emits_v44 : answers (step (pp .ahrs 0x30#8 ([0xFC#8, 0x41#8, 0x30#8, 0x00#8, 0xD4#8, 0xA0#8, 0xA7#8] ++ v44Payload ++ [0xFD#8])))
    { ah [0xFD#8] with out := [⟨.ahrs, [0xFC#8, 0x41#8, 0x30#8, 0x00#8, 0xD4#8, 0xA0#8, 0xA7#8] ++ v44Payload⟩] } = true := by decide +kernel

/-- R29: with DIAG_EN false the code is not appended. -/
theorem test_diag_disabled : answers (exec .ahSkip { ah [0x11#8, 0x22#8] with cfg := { diagEn := false } })
    { ah [0x22#8] with cfg := { diagEn := false } } = true := by decide +kernel

/-- R51: a PUSH beyond a finite BUF_CAP is not admitted. -/
theorem test_push_full : refuses (exec (.push (List.replicate 264 0x00#8)) { State.reset with cfg := { bufCap := some 263 } }) .bufferFull = true := by
  decide +kernel

/-- R119: a PUSH offered while the decoder still drains waits. -/
theorem test_push_waits : answers (step { ah [0xFD#8, 0xFC#8] with inbox := [.push [0x40#8]] })
    { hp [0xFC#8] with inbox := [.push [0x40#8]] } = true := by decide +kernel

/-- R111: a RESET is taken in the middle of a drain. -/
theorem test_reset_at_once : answers (step { ah [0xFD#8, 0xFC#8] with inbox := [.reset, .close] })
    { State.reset with inbox := [.close] } = true := by decide +kernel

/-- A table word placed at reset is what the next step runs: PP.EMIT (V84), CLOSE, and the IMU header (V72). -/
theorem test_withFetchWord :
    answers (step (State.reset.withFetchWord 5 0b10110)) { ah [0xFD#8] with out := [⟨.nonsense, v40⟩] } = true ∧
    answers (step (State.reset.withFetchWord 2 0b10)) { State.reset with closed := true } = true ∧
    answers (step (State.reset.withFetchWord 40 0xFC40040137)) (pp .imu 0x04#8 [0xFC#8, 0x40#8, 0x04#8, 0x01#8, 0x37#8]) = true := by
  decide +kernel

/-! ### Witnesses: for every obligation with hypotheses, concrete values that meet them, one per clause -/

/-- V46's shape: a full frame of 255 zero bytes, whose CRC-16 field is zero (R98 law 4), under the header of V31. -/
def longFrame : List Byte := [0xFC#8, 0x58#8, 0xFF#8, 0x00#8, 0xBC#8, 0x00#8, 0x00#8] ++ List.replicate 255 0x00#8

/-- The fullest quiescent state: 262 bytes, BUF_CAP at its least. -/
def fullest : State := { pp .raw 0xFF#8 longFrame with cfg := { bufCap := some 263 } }

theorem witness_PushAppendsChunk : ([0x00#8] : List Byte) ≠ [] ∧ fullest.closed = false ∧ fullest.quiescent = true ∧
    (∀ n, fullest.cfg.bufCap = some n → fullest.buf.length + [0x00#8].length ≤ n) :=
  ⟨by decide, by decide, by decide +kernel, fun n h => by
    obtain rfl : 263 = n := by simpa [fullest] using h
    decide +kernel⟩

theorem witness_PushAppendsChunk_not_admitted : ¬ (([0x00#8, 0x00#8] : List Byte) ≠ [] ∧ fullest.closed = false ∧ fullest.quiescent = true ∧
    ∀ n, fullest.cfg.bufCap = some n → fullest.buf.length + [0x00#8, 0x00#8].length ≤ n) := fun h =>
  absurd (h.2.2.2 263 rfl) (by decide +kernel)

theorem witness_CloseSetsClosed : State.reset.closed = false ∧ State.reset.quiescent = true := by decide

theorem witness_CloseSetsClosed_not_admitted :
    ¬ ((ah [0xFD#8, 0xFC#8]).closed = false ∧ (ah [0xFD#8, 0xFC#8]).quiescent = true) := by decide

theorem witness_InadmissibleEventsRefusedByName :
    ({ State.reset with closed := true } : State).closed = true ∧
    ((ah [0xFD#8, 0xFC#8]).closed = false ∧ (ah [0xFD#8, 0xFC#8]).quiescent = false) ∧
    (fullest.closed = false ∧ fullest.quiescent = true ∧ fullest.cfg.bufCap = some 263 ∧ 263 < fullest.buf.length + 2) := by
  decide +kernel

theorem witness_AhWaitChangesNothing : ((ah [0xFD#8]).fs = .awaitingHeader ∧ (ah [0xFD#8]).buf.length < 2) ∧
    ¬ ((ah [0xFD#8, 0xFC#8]).fs = .awaitingHeader ∧ (ah [0xFD#8, 0xFC#8]).buf.length < 2) := by decide

theorem witness_AhSyncDropsFirstMarkerByte :
    ((ah [0xFD#8, 0xFC#8]).fs = .awaitingHeader ∧ (ah [0xFD#8, 0xFC#8]).buf = 0xFD#8 :: 0xFC#8 :: []) ∧
    ¬ ((ah [0xFD#8]).fs = .awaitingHeader ∧ ∃ rest, (ah [0xFD#8]).buf = 0xFD#8 :: 0xFC#8 :: rest) :=
  ⟨by decide, fun h => by obtain ⟨-, rest, hr⟩ := h; simp [ah, at_] at hr⟩

theorem witness_AhSkipDropsOneByte :
    ((ah [0xFD#8, 0x00#8]).fs = .awaitingHeader ∧ (ah [0xFD#8, 0x00#8]).buf = 0xFD#8 :: 0x00#8 :: [] ∧
      ¬ ((0xFD#8 : Byte) = 0xFD#8 ∧ (0x00#8 : Byte) = 0xFC#8)) ∧
    ¬ ((hp [0xFC#8]).fs = .awaitingHeader ∧ ∃ a b rest, (hp [0xFC#8]).buf = a :: b :: rest ∧ ¬ (a = 0xFD#8 ∧ b = 0xFC#8)) :=
  ⟨by decide, fun h => by simp [hp, at_] at h⟩

theorem witness_HpWaitChangesNothing :
    ((hp [0xFC#8, 0x50#8, 0x02#8, 0x00#8]).fs = .headerPending ∧ (hp [0xFC#8, 0x50#8, 0x02#8, 0x00#8]).buf.length < 5) ∧
    ¬ ((hp [0xFC#8, 0x50#8, 0x02#8, 0x00#8, 0x89#8]).fs = .headerPending ∧
      (hp [0xFC#8, 0x50#8, 0x02#8, 0x00#8, 0x89#8]).buf.length < 5) := by decide

theorem witness_HpAcceptRecordsTypeAndLength :
    ((hp [0xFC#8, 0x58#8, 0xFF#8, 0x00#8, 0xBC#8]).fs = .headerPending ∧
      (hp [0xFC#8, 0x58#8, 0xFF#8, 0x00#8, 0xBC#8]).buf = 0xFC#8 :: typeCode .raw :: 0xFF#8 :: 0x00#8 :: 0xBC#8 :: [] ∧
      crc8 [0xFC#8, typeCode .raw, 0xFF#8, 0x00#8, 0xBC#8] = 0x00#8) ∧
    ¬ ((ah []).fs = .headerPending ∧ ∃ m t l r c rest, (ah []).buf = m :: typeCode t :: l :: r :: c :: rest ∧
        crc8 [m, typeCode t, l, r, c] = 0x00#8) :=
  ⟨by decide +kernel, fun h => by simp [ah, at_] at h⟩

theorem witness_HpBadtypeResynchronises :
    ((hp [0xFC#8, 0x50#8, 0x02#8, 0x00#8, 0x89#8]).fs = .headerPending ∧
      (hp [0xFC#8, 0x50#8, 0x02#8, 0x00#8, 0x89#8]).buf = 0xFC#8 :: 0x50#8 :: 0x02#8 :: 0x00#8 :: 0x89#8 :: [] ∧
      crc8 [0xFC#8, 0x50#8, 0x02#8, 0x00#8, 0x89#8] = 0x00#8 ∧ (0x50#8 : Byte) ∉ [0x00#8, 0x40#8, 0x41#8, 0x42#8, 0x58#8]) ∧
    ¬ ((ah []).fs = .headerPending ∧ ∃ m t l r c rest, (ah []).buf = m :: t :: l :: r :: c :: rest ∧
        crc8 [m, t, l, r, c] = 0x00#8 ∧ t ∉ [0x00#8, 0x40#8, 0x41#8, 0x42#8, 0x58#8]) :=
  ⟨by decide +kernel, fun h => by simp [ah, at_] at h⟩

theorem witness_HpBadcrcResynchronises :
    ((hp [0xFC#8, 0x50#8, 0x02#8, 0x00#8, 0x88#8]).fs = .headerPending ∧
      (hp [0xFC#8, 0x50#8, 0x02#8, 0x00#8, 0x88#8]).buf = 0xFC#8 :: 0x50#8 :: 0x02#8 :: 0x00#8 :: 0x88#8 :: [] ∧
      crc8 [0xFC#8, 0x50#8, 0x02#8, 0x00#8, 0x88#8] ≠ 0x00#8) ∧
    ¬ ((ah []).fs = .headerPending ∧ ∃ m t l r c rest, (ah []).buf = m :: t :: l :: r :: c :: rest ∧
        crc8 [m, t, l, r, c] ≠ 0x00#8) :=
  ⟨by decide +kernel, fun h => by simp [ah, at_] at h⟩

/-- The longest wait: 262 bytes of the 263 that are needed. -/
theorem witness_PpWaitChangesNothing : (fullest.fs = .payloadPending .raw 0xFF#8 ∧ fullest.buf.length < (0xFF#8 : Byte).toNat + 8) ∧
    ¬ (∃ t l, (ah []).fs = .payloadPending t l ∧ (ah []).buf.length < l.toNat + 8) :=
  ⟨by decide +kernel, fun h => by simp [ah, at_] at h⟩

/-- L = 0 (V84). -/
theorem witness_PpEmitEmitsFrame :
    (pp .nonsense 0x00#8 (v40 ++ [0xFD#8])).buf =
      [0xFC#8, 0x00#8, 0x00#8, 0x00#8, 0x63#8] ++ [0x00#8, 0x00#8] ++ [] ++ 0xFD#8 :: [] ∧
    crc16 (([] : List Byte) ++ [0x00#8, 0x00#8]) = 0x0000#16 := by decide +kernel

/-- L = 255. -/
theorem witness_PpEmitEmitsFrame_longest :
    (pp .raw 0xFF#8 (longFrame ++ [0x55#8])).buf =
      [0xFC#8, 0x58#8, 0xFF#8, 0x00#8, 0xBC#8] ++ [0x00#8, 0x00#8] ++ List.replicate 255 0x00#8 ++ 0x55#8 :: [] ∧
    (List.replicate 255 0x00#8).length = (0xFF#8 : Byte).toNat ∧
    crc16 (List.replicate 255 0x00#8 ++ [0x00#8, 0x00#8]) = 0x0000#16 :=
  have zeros : ∀ n, crc16From 0x0000#16 (List.replicate n 0x00#8 ++ [0x00#8, 0x00#8]) = 0x0000#16 := fun n => by
    induction n with
    | zero => decide +kernel
    | succ n ih => exact ih
  ⟨by simp only [pp, at_, longFrame, List.cons_append, List.nil_append], List.length_replicate, zeros 255⟩

theorem witness_PpEmitEmitsFrame_elsewhere : ¬ (∃ t l head a b payload g rest, (ah []).fs = .payloadPending t l ∧
    (ah []).buf = head ++ [a, b] ++ payload ++ g :: rest ∧ head.length = 5 ∧ payload.length = l.toNat ∧
      crc16 (payload ++ [a, b]) = 0x0000#16) := fun h => by simp [ah, at_] at h

/-- V88. -/
theorem witness_PpBadcrcResynchronises :
    (pp .nonsense 0x00#8 [0xFC#8, 0x00#8, 0x00#8, 0x00#8, 0x63#8, 0x00#8, 0x01#8, 0xFD#8]).buf =
      0xFC#8 :: [0x00#8, 0x00#8, 0x00#8, 0x63#8] ++ [0x00#8, 0x01#8] ++ [] ++ 0xFD#8 :: [] ∧
    crc16 (([] : List Byte) ++ [0x00#8, 0x01#8]) ≠ 0x0000#16 := by decide +kernel

theorem witness_PpBadcrcResynchronises_elsewhere : ¬ (∃ t l head a b payload g rest, (ah []).fs = .payloadPending t l ∧
    (ah []).buf = head ++ [a, b] ++ payload ++ g :: rest ∧ head.length = 5 ∧ payload.length = l.toNat ∧
      crc16 (payload ++ [a, b]) ≠ 0x0000#16) := fun h => by simp [ah, at_] at h

/-- The headers of V25, V26, V29, V30, V27. -/
theorem witness_PacketTypesAccepted :
    ((hp [0xFC#8, 0x00#8, 0x00#8, 0x00#8, 0x63#8]).fs = .headerPending ∧ (hp [0xFC#8, 0x00#8, 0x00#8, 0x00#8, 0x63#8]).buf = [0xFC#8, 0x00#8, 0x00#8, 0x00#8, 0x63#8] ++ [] ∧
      crc8 [0xFC#8, 0x00#8, 0x00#8, 0x00#8, 0x63#8] = 0x00#8) ∧
    ((hp [0xFC#8, 0x40#8, 0x04#8, 0x01#8, 0x37#8]).fs = .headerPending ∧ (hp [0xFC#8, 0x40#8, 0x04#8, 0x01#8, 0x37#8]).buf = [0xFC#8, 0x40#8, 0x04#8, 0x01#8, 0x37#8] ++ [] ∧
      crc8 [0xFC#8, 0x40#8, 0x04#8, 0x01#8, 0x37#8] = 0x00#8) ∧
    ((hp [0xFC#8, 0x41#8, 0x30#8, 0x00#8, 0xD4#8]).fs = .headerPending ∧ (hp [0xFC#8, 0x41#8, 0x30#8, 0x00#8, 0xD4#8]).buf = [0xFC#8, 0x41#8, 0x30#8, 0x00#8, 0xD4#8] ++ [] ∧
      crc8 [0xFC#8, 0x41#8, 0x30#8, 0x00#8, 0xD4#8] = 0x00#8) ∧
    ((hp [0xFC#8, 0x42#8, 0x01#8, 0x2A#8, 0x84#8]).fs = .headerPending ∧ (hp [0xFC#8, 0x42#8, 0x01#8, 0x2A#8, 0x84#8]).buf = [0xFC#8, 0x42#8, 0x01#8, 0x2A#8, 0x84#8] ++ [] ∧
      crc8 [0xFC#8, 0x42#8, 0x01#8, 0x2A#8, 0x84#8] = 0x00#8) ∧
    ((hp [0xFC#8, 0x58#8, 0x03#8, 0x07#8, 0xEB#8]).fs = .headerPending ∧ (hp [0xFC#8, 0x58#8, 0x03#8, 0x07#8, 0xEB#8]).buf = [0xFC#8, 0x58#8, 0x03#8, 0x07#8, 0xEB#8] ++ [] ∧
      crc8 [0xFC#8, 0x58#8, 0x03#8, 0x07#8, 0xEB#8] = 0x00#8) := by
  decide +kernel

theorem witness_PacketTypeHeadersElsewhere :
    ((hp [0xFC#8, 0x40#8, 0x04#8, 0x02#8, 0x37#8]).buf = [0xFC#8, typeCode .imu, 0x04#8, 0x02#8, 0x37#8] ++ [] ∧
      crc8 [0xFC#8, typeCode .imu, 0x04#8, 0x02#8, 0x37#8] ≠ 0x00#8) ∧
    ¬ ((ah []).fs = .headerPending ∧ ∃ rest, (ah []).buf = [0xFC#8, typeCode .imu, 0x04#8, 0x02#8, 0x37#8] ++ rest) :=
  ⟨by decide +kernel, fun h => by simp [ah, at_] at h⟩

theorem witness_IllegalTypesRejected : known 0x50#8 = false ∧ crc8 [0xFC#8, 0x50#8, 0x02#8, 0x00#8, 0x89#8] = 0x00#8 ∧
    (hp [0xFC#8, 0x50#8, 0x02#8, 0x00#8, 0x89#8]).buf = 0xFC#8 :: 0x50#8 :: 0x02#8 :: 0x00#8 :: 0x89#8 :: [] := by
  decide +kernel

theorem witness_DecisionWordBits : (ah []).fs = .awaitingHeader ∧ (hp []).fs = .headerPending ∧
    (pp .imu 0x04#8 v41).fs = .payloadPending .imu 0x04#8 := by decide

theorem witness_DecisionWordSelectsNextOp : BitVec.extractLsb' 3 2 0b10110#5 ≠ 0b11#2 ∧ BitVec.extractLsb' 3 2 0b11000#5 = 0b11#2 := by
  decide

theorem witness_ExactlyOneTransitionEnabled :
    Instr.ahSync ∈ [Instr.ahWait, .ahSync, .ahSkip, .hpWait, .hpAccept, .hpBadtype, .hpBadcrc, .ppWait, .ppEmit, .ppBadcrc] ∧
    Instr.ahSync ≠ State.reset.nextOp := by decide

/-- The invariant holds in a state of each kind, at the bounds of R118 and R221. -/
theorem witness_invariant : fullest.inv = true ∧ (ah [0xFD#8]).inv = true ∧ (hp [0xFC#8]).inv = true ∧
    (hp [0xFC#8, 0x50#8, 0x02#8, 0x00#8]).inv = true ∧ (pp .imu 0x04#8 v41).inv = true ∧
    ({ pp .imu 0x04#8 v41 with closed := true, out := [⟨.nonsense, v40⟩], dg := [.badSync] } : State).inv = true := by decide +kernel

theorem witness_QuiescentExactly : fullest.inv = true ∧ fullest.fs = .payloadPending .raw 0xFF#8 ∧ fullest.quiescent = true ∧
    fullest.inbox = [] ∧ (ah [0xFD#8]).quiescent = true ∧ (hp [0xFC#8]).quiescent = true := by decide +kernel

theorem witness_StepRunsDecodedOperation :
    decodeDecision (ah [0xFD#8, 0xFC#8]).decisionWord = .ok .ahSync ∧
    decodeDecision ({ ah [0xFD#8, 0xFC#8] with inbox := [.idle] } : State).decisionWord = .ok .ahSync ∧
    decodeEvent (eventCode (.push [0x40#8])) (eventOperand (.push [0x40#8])) = .ok (.push [0x40#8]) ∧
    decodeEvent (eventCode .close) (eventOperand .close) = .ok .close ∧
    decodeEvent (eventCode .reset) (eventOperand .reset) = .ok .reset ∧
    (ah [0xFD#8, 0xFC#8]).quiescent = false ∧ State.reset.quiescent = true ∧
    decodeHeader ((hp [0xFC#8, 0x40#8, 0x04#8, 0x01#8, 0x37#8]).buf.take 5) = .ok (.imu 0x04#8 0x01#8 0x37#8) :=
  ⟨rfl, rfl, rfl, rfl, rfl, rfl, rfl, rfl⟩

/-- V55, as a step. -/
theorem witness_DecoderStepIsNeverRefused :
    step { State.reset with closed := true, inbox := [.push [0x00#8]] } = .refused .inputClosed := rfl

/-- A step of each kind that answers a next state, none of them a RESET but the last. -/
theorem witness_steps :
    (∃ t, step { State.reset with inbox := [.push [0xFD#8]] } = .next t) ∧ (∃ t, step (ah [0x11#8, 0x22#8]) = .next t) ∧
    (∃ t, step { State.reset with inbox := [.close] } = .next t) ∧ (∃ t, step { State.reset with inbox := [.reset] } = .next t) :=
  ⟨⟨_, rfl⟩, ⟨_, rfl⟩, ⟨_, rfl⟩, ⟨_, rfl⟩⟩

theorem witness_StepKeepsInvariant : ({ fullest with inbox := [.push [0x55#8]] } : State).inv = true ∧
    answers (step { fullest with inbox := [.push [0x55#8]] }) { fullest with buf := longFrame ++ [0x55#8] } = true := by decide +kernel

theorem witness_TracesOnlyGrow : ∀ rest, (ah [0x11#8, 0x22#8]).inbox ≠ .reset :: rest := fun rest h => by
  simp [ah, at_, State.reset] at h

theorem witness_ResyncDropsRetainedMarkerByte :
    ((hp [0xFC#8, 0x50#8, 0x02#8, 0x00#8, 0x88#8]).inv = true ∧ (hp [0xFC#8, 0x50#8, 0x02#8, 0x00#8, 0x88#8]).nextOp = .hpBadcrc) ∧
    ((hp [0xFC#8, 0x50#8, 0x02#8, 0x00#8, 0x89#8]).inv = true ∧ (hp [0xFC#8, 0x50#8, 0x02#8, 0x00#8, 0x89#8]).nextOp = .hpBadtype) ∧
    ((pp .nonsense 0x00#8 [0xFC#8, 0x00#8, 0x00#8, 0x00#8, 0x63#8, 0x00#8, 0x01#8, 0xFD#8]).inv = true ∧
      (pp .nonsense 0x00#8 [0xFC#8, 0x00#8, 0x00#8, 0x00#8, 0x63#8, 0x00#8, 0x01#8, 0xFD#8]).nextOp = .ppBadcrc) := by
  decide +kernel

theorem witness_ClosedBlockIsFrozen : ({ pp .imu 0x04#8 v41 with closed := true } : State).inv = true ∧
    ({ pp .imu 0x04#8 v41 with closed := true } : State).closed = true ∧
    ∃ t, step { pp .imu 0x04#8 v41 with closed := true } = .next t := ⟨by decide +kernel, by decide, ⟨_, rfl⟩⟩

theorem witness_ResetMeetsInvariant : ({ bufCap := some 263, diagEn := false } : Config).wf = true := by decide

theorem witness_RecordedFieldsAreInBuffer : fullest.inv = true ∧ fullest.curType = some .raw ∧ fullest.curLen = some 0xFF#8 := by
  decide +kernel

theorem witness_OccupancyBounds : fullest.inv = true ∧ fullest.quiescent = true ∧ fullest.closed = false ∧ fullest.buf.length = 262 ∧
    answers (exec (.push [0x55#8]) fullest) { fullest with buf := longFrame ++ [0x55#8] } = true := by decide +kernel

/-- A transition that drops a byte, and HP.ACCEPT, which drops none. -/
theorem witness_DrainStops :
    isWait (ah [0xFD#8, 0xFC#8]).nextOp = false ∧ (ah [0xFD#8, 0xFC#8]).nextOp ≠ .hpAccept ∧
    (hp [0xFC#8, 0x40#8, 0x04#8, 0x01#8, 0x37#8]).nextOp = .hpAccept ∧
    answers (exec .ahSync (ah [0xFD#8, 0xFC#8])) (hp [0xFC#8]) = true := by decide +kernel

theorem witness_TransitionsIgnoreLaterBytes : (ah [0xFD#8, 0xFC#8]).quiescent = false := by decide

theorem witness_ChunkBoundariesDoNotMatter : State.reset.quiescent = true ∧ (∀ x ∈ [[0xFD#8, 0xFC#8], [0x40#8]], x ≠ []) ∧
    (∀ y ∈ [[0xFD#8], [0xFC#8, 0x40#8]], y ≠ []) ∧
    [[0xFD#8, 0xFC#8], [0x40#8]].flatten = [[0xFD#8], [0xFC#8, 0x40#8]].flatten := by decide

/-- A finite BUF_CAP with no room to spare for the longer chunk. -/
theorem witness_StepsRunReferenceSchedule : State.reset.inbox = [] ∧ State.reset.quiescent = true ∧ State.reset.closed = false ∧
    (∀ n, ({ State.reset with cfg := { bufCap := some 264 } } : State).cfg.bufCap = some n →
      ∀ x ∈ [[0xFD#8, 0xFC#8], [0x40#8]], 262 + x.length ≤ n) ∧
    (∀ x ∈ [[0xFD#8, 0xFC#8], [0x40#8]], x ≠ []) :=
  ⟨by decide, by decide, by decide, fun n h => by
    obtain rfl : 264 = n := by simpa using h
    decide, by decide⟩

/-- V66's overlapping marker, and a lone byte behind noise. -/
theorem witness_ScanStopsAtFirstMarker :
    ((ah [0xFD#8, 0xFD#8, 0xFC#8]).buf = [0xFD#8] ++ 0xFD#8 :: 0xFC#8 :: [] ∧
      (∀ i, i < 1 → Memory.markerAtFront ((ah [0xFD#8, 0xFD#8, 0xFC#8]).buf.drop i) = false)) ∧
    ((ah [0x11#8, 0xFD#8]).buf = [0x11#8] ++ [0xFD#8] ∧
      (∀ i, Memory.markerAtFront ((ah [0x11#8, 0xFD#8]).buf.drop i) = false)) :=
  ⟨by decide, rfl, fun i => by
    rcases i with _ | _ | _ | i
    · decide
    · decide
    · decide
    · simp [ah, at_, Memory.markerAtFront, Memory.byteAt]⟩

theorem witness_WireFrameEmittedAfterGuardByte : State.reset.fs = .awaitingHeader ∧ State.reset.buf = [] ∧
    (List.replicate 255 0x00#8).length ≤ 255 ∧ ([] : List Byte).length ≤ 255 := by decide +kernel

/-- One byte of noise on either side of V40's wire frame. -/
theorem witness_FrameInNoiseIsFound : ([] : List Byte).length ≤ 255 ∧ ([0x11#8] : List Byte) ≠ [] ∧
    (∀ i, i ≠ ([0x11#8] : List Byte).length →
      goodHeaderAt ([0x11#8] ++ wireOf (typeCode .nonsense) 0x00#8 [] ++ [0x11#8]) i = false) ∧
    (∀ x ∈ [[0x11#8], wireOf (typeCode .nonsense) 0x00#8 [], [0x11#8]], x ≠ []) ∧
    [[0x11#8], wireOf (typeCode .nonsense) 0x00#8 [], [0x11#8]].flatten =
      [0x11#8] ++ wireOf (typeCode .nonsense) 0x00#8 [] ++ [0x11#8] := by
  refine ⟨by decide, by decide, fun i hi => ?_, by decide +kernel, by decide +kernel⟩
  have short : ∀ j, j < 10 → j ≠ 1 → goodHeaderAt ([0x11#8] ++ wireOf (typeCode .nonsense) 0x00#8 [] ++ [0x11#8]) j = false := by
    decide +kernel
  by_cases h : i < 10
  · exact short i h hi
  · have hl : ([0x11#8] ++ wireOf (typeCode .nonsense) 0x00#8 [] ++ [0x11#8]).length = 10 := by decide +kernel
    simp only [goodHeaderAt, hl]
    simp only [show ¬ (i + 6 ≤ 10) by omega, decide_false, Bool.and_false, Bool.false_and]

theorem witness_GuardByteIsNeverRead : (pp .nonsense 0x00#8 []).fs = .payloadPending .nonsense 0x00#8 ∧
    v40.length = (0x00#8 : Byte).toNat + 7 ∧
    ({ pp .nonsense 0x00#8 [] with buf := v40 ++ 0xFD#8 :: [] } : State).nextOp = .ppEmit := by decide +kernel

theorem witness_CrcLaws : ([0x01#8, 0x02#8] : List Byte).length = ([0xFF#8, 0x80#8] : List Byte).length := rfl

theorem witness_CrcEightResidue : ([0xFC#8, 0x40#8, 0x04#8, 0x01#8] : List Byte).length = 4 ∧
    ([0xFC#8, 0x40#8, 0x04#8, 0x01#8, 0x37#8] : List Byte).length = 5 := by decide

theorem witness_HeaderCheckComparesField : 5 ≤ ([0xFC#8, 0x40#8, 0x04#8, 0x01#8, 0x37#8] : Memory).length := by decide

/-- L = 0 and L = 255. -/
theorem witness_PayloadCheckComparesField : ([0xFC#8, 0x40#8, 0x00#8, 0x01#8, 0x37#8] : List Byte).length = 5 ∧
    ([] : List Byte).length = (0x00#8 : Byte).toNat ∧ (List.replicate 255 0x00#8).length = (0xFF#8 : Byte).toNat := by decide +kernel

theorem witness_SingleBitErrorsAreDetected : 4 < ([0xFC#8, 0x40#8, 0x04#8, 0x01#8, 0x37#8] : List Byte).length ∧
    crc8 [0xFC#8, 0x40#8, 0x04#8, 0x01#8, 0x37#8] = 0x00#8 ∧ 5 < ([0xDE#8, 0xAD#8, 0xBE#8, 0xEF#8, 0xC4#8, 0x57#8] : List Byte).length ∧
    crc16 [0xDE#8, 0xAD#8, 0xBE#8, 0xEF#8, 0xC4#8, 0x57#8] = 0x0000#16 ∧ 7 < 8 := by decide +kernel

theorem witness_DecodeOfEncode : Instr.wf (.imu 0x04#8 0x01#8 0x37#8) = true ∧ Instr.wf (.push [0x00#8]) = true := by decide +kernel

/-- An encoding, and a decision word that differs from one in an ignored bit. -/
theorem witness_DecodedBytesAreTheEncoding : decode [0x06#8] = .ok .ahSync ∧ decode [0x07#8] = .ok .ahSync := ⟨rfl, rfl⟩

theorem witness_HeaderWordsDecodeByTheirRow :
    0xFC00000063 < 2 ^ 40 ∧ 0xFC00000063 &&& 0xFFFF000000 = 0xFC00000000 ∧
    0xFC40040137 &&& 0xFFFF000000 = 0xFC40000000 ∧ 0xFC413000D4 &&& 0xFFFF000000 = 0xFC41000000 ∧
    0xFC42012A84 &&& 0xFFFF000000 = 0xFC42000000 ∧ 0xFC580307EB &&& 0xFFFF000000 = 0xFC58000000 := by decide

theorem witness_BeatsCarryTheFrame :
    (ValidatedPacket.beats ⟨.nonsense, v40⟩)[6]? = some { data := 0x00#8, first := false, last := true, ptype := 0x00#8, len := 7#9 } := by
  decide

/-- The fullest quiescent state shows 262 on `st_count` (R221); 9 bits still hold 511, with BUF_CAP unbounded and above 511; a capacity that a
buffer has passed saturates. -/
theorem witness_PortsShowState : fullest.inv = true ∧ fullest.quiescent = true ∧ fullest.stCount = 262#9 ∧
    (ah (List.replicate 511 0x00#8)).cfg.bufCap = none ∧ (ah (List.replicate 511 0x00#8)).buf.length ≤ 511 ∧
    min (ah (List.replicate 511 0x00#8)).buf.length 600 ≤ 511 ∧
    ({ ah (List.replicate 300 0x00#8) with cfg := { bufCap := some 263 } } : State).stCount = 263#9 := by decide +kernel

/-- R169, R181: each input port alone, at quiescence and not; the four diagnostic numbers. -/
theorem test_input_ports_and_codes : State.reset.inTransfer true 0xFD#8 = some (.push [0xFD#8]) ∧
    (ah [0xFD#8, 0xFC#8]).inTransfer true 0x40#8 = none ∧ State.reset.closeAccepted true = some .close ∧
    (ah [0xFD#8, 0xFC#8]).closeAccepted true = none ∧ rstEvent true = some .reset ∧ (hp [0xFC#8]).stFs = 0b01#2 ∧
    ({ ah [] with dg := [.badSync, .badHdrCrc, .badType, .badPayloadCrc] } : State).diagCodes = [1#3, 2#3, 3#3, 4#3] := by decide +kernel

/-- V84's packet, with its seven bytes sent and not sent, and one reported code (R169). -/
theorem test_output_ports :
    let s : State := { ah [0xFD#8] with closed := true, out := [⟨.nonsense, v40⟩], dg := [.badType] }
    s.outValid 6 = true ∧ s.outValid 7 = false ∧ s.outEnd 6 = false ∧ s.outEnd 7 = true ∧ s.outTransfer true 6 = 7 ∧
      s.outTransfer false 6 = 6 ∧ s.diagValid 0 = true ∧ s.diagCode 0 = some 3#3 ∧ s.diagValid 1 = false := by decide +kernel

end Sys2Proof.Tests
end

namespace Sys2Proof.Machine

/-- R24: `cur_type` is valid exactly in PayloadPending. -/
theorem State.curType_isSome_iff (s : State) : s.curType.isSome = true ↔ ∃ p l, s.fs = .payloadPending p l := by
  cases h : s.fs <;> simp [State.curType, h]

/-- R24: `cur_len` is valid exactly in PayloadPending. -/
theorem State.curLen_isSome_iff (s : State) : s.curLen.isSome = true ↔ ∃ p l, s.fs = .payloadPending p l := by
  cases h : s.fs <;> simp [State.curLen, h]

/-- R7, R211: neither an event of the environment nor a decoder transition writes the parameters. -/
theorem step_cfg {s t : State} (h : step s = .next t) : t.cfg = s.cfg := by
  obtain ⟨_, -, rfl⟩ | ⟨x, _, -, -, -, -, -, rfl⟩ | ⟨_, -, -, -, rfl⟩ | ⟨-, u, hu, rfl⟩ := step_cases h
  case inl => simp
  case inr.inl => simp
  case inr.inr.inl => simp
  case inr.inr.inr =>
    have hcfg : u.decoderStep.cfg = u.cfg := u.decoderStep_frame.1
    obtain rfl | rfl := hu
    · exact hcfg
    · rw [hcfg, State.popInbox_cfg]

/-- Settles O32: each kind of step keeps `cfg` (`step_cfg`), and the fields' validity is that of the frame state which carries them. -/
theorem parametersAreNotState : Obligations.ParametersAreNotState :=
  fun _ t h => ⟨step_cfg h, t.curType_isSome_iff, t.curLen_isSome_iff⟩

end Sys2Proof.Machine

namespace Sys2Proof.Machine

/-! ### Appending behind a whole header region leaves its reading as it was -/

theorem Memory.hdrOk_append {b : Memory} (y : List Byte) (h : 5 ≤ b.length) : Memory.hdrOk (b ++ y) = b.hdrOk := by
  simp only [Memory.hdrOk, Memory.header, Memory.slice_append b y h]

theorem Memory.payOk_append {b : Memory} (y : List Byte) {l : Byte} (h : frameLen l ≤ b.length) :
    Memory.payOk (b ++ y) l = b.payOk l := by
  simp only [frameLen, Config.frameOverhead] at h
  have hcrc : Memory.crcField (b ++ y) = b.crcField :=
    Memory.slice_append b y (by simp only [Config.crc16Off]; omega)
  have hpay : Memory.payload (b ++ y) l = b.payload l :=
    Memory.slice_append b y (by simp only [Config.payloadOff]; omega)
  simp only [Memory.payOk, hcrc, hpay]

/-- What a header accepted by HP.ACCEPT leaves readable at the front of a byte sequence (R31 PP, R153): the retained `0xFC`, a header of
zero residue, the code of the type, the length. -/
def Memory.HeaderRecorded (b : Memory) (t : PacketType) (l : Byte) : Prop :=
  b.byteAt 0 = some Config.sync1 ∧ b.hdrOk = true ∧ b.declaredType = some (typeCode t) ∧ b.payloadLen = some l

theorem Memory.headerRecorded_append {b : Memory} (y : List Byte) (t : PacketType) (l : Byte) (h : 5 ≤ b.length) :
    Memory.HeaderRecorded (b ++ y) t l ↔ b.HeaderRecorded t l := by
  have hbyte : ∀ i < 5, Memory.byteAt (b ++ y) i = b.byteAt i := fun i hi => Memory.byteAt_append b y (by omega)
  simp only [Memory.HeaderRecorded, Memory.declaredType, Memory.payloadLen, Memory.hdrOk_append y h,
    hbyte 0 (by omega), hbyte Config.typeOff (by decide), hbyte Config.lenOff (by decide)]

theorem Memory.frame_append_drop (b : Memory) (l : Byte) : b.frame l ++ b.drop (frameLen l) = b := by
  simp [Memory.frame, Memory.slice]

theorem Memory.frame_length {b : Memory} {l : Byte} (h : frameLen l ≤ b.length) : (b.frame l).length = frameLen l := by
  simpa [Memory.frame, Memory.slice] using h

/-! ### The invariant's parts as propositions -/

theorem frameStateOk_awaitingHeader {s : State} (h : s.fs = .awaitingHeader) : frameStateOk s = true := by
  simp [frameStateOk, h]

theorem frameStateOk_headerPending {s : State} (h : s.fs = .headerPending) :
    frameStateOk s = true ↔ s.buf.byteAt 0 = some Config.sync1 := by
  simp [frameStateOk, h]

theorem frameStateOk_payloadPending {s : State} {t : PacketType} {l : Byte} (h : s.fs = .payloadPending t l) :
    frameStateOk s = true ↔ 5 ≤ s.buf.length ∧ s.buf.HeaderRecorded t l := by
  simp [frameStateOk, h, Memory.HeaderRecorded, and_assoc]

theorem packetOk_iff (p : ValidatedPacket) : packetOk p = true ↔
    ∃ l, Memory.HeaderRecorded p.bytes p.ptype l ∧ p.bytes.length = frameLen l ∧ Memory.payOk p.bytes l = true := by
  cases hl : Memory.payloadLen p.bytes <;> simp [packetOk, Memory.HeaderRecorded, hl, and_assoc]

theorem withinCap_iff (s : State) : withinCap s = true ↔ ∀ n, s.cfg.bufCap = some n → s.buf.length ≤ n := by
  cases h : s.cfg.bufCap <;> simp [withinCap, h]

theorem inv_popInbox (s : State) : s.popInbox.inv = s.inv := rfl

/-- Settles O30: the reset state awaits a header, is open, and holds no byte, packet or code. -/
theorem resetMeetsInvariant : Obligations.ResetMeetsInvariant := by
  intro cfg hcfg
  refine (State.inv_iff _).mpr ⟨frameStateOk_awaitingHeader rfl, nofun, nofun, ?_, fun _ => rfl, hcfg⟩
  exact (withinCap_iff _).mpr fun n _ => Nat.zero_le n

/-- Settles O1: RESET is `State.resetBlock`, whose fields are the reset values. -/
theorem resetGivesResetValues : Obligations.ResetGivesResetValues :=
  ⟨fun s => ⟨s.resetBlock, rfl, rfl, rfl, rfl, rfl, rfl, rfl, rfl, rfl, rfl⟩, rfl⟩

/-- Settles O33: both fields are arguments of PayloadPending, where the invariant records them in the buffer. -/
theorem recordedFieldsAreInBuffer : Obligations.RecordedFieldsAreInBuffer := by
  intro s hinv
  obtain ⟨hfs, -⟩ := (State.inv_iff s).mp hinv
  cases hf : s.fs with
  | awaitingHeader => simp [State.curType, State.curLen, hf]
  | headerPending => simp [State.curType, State.curLen, hf]
  | payloadPending t l =>
    obtain ⟨-, -, -, htype, hlen⟩ := (frameStateOk_payloadPending hf).mp hfs
    refine ⟨fun t' h => ?_, fun l' h => ?_⟩
    · obtain rfl : t = t' := by simpa [State.curType, hf] using h
      exact htype
    · obtain rfl : l = l' := by simpa [State.curLen, hf] using h
      exact hlen

/-! ### What a decoder transition does to the buffer and to the traces -/

/-- The transitions that drop exactly one byte (R131, R132, R142, R143, R154). -/
def dropsOneByte (i : Instr) : Bool := i ∈ [Instr.ahSync, .ahSkip, .hpBadtype, .hpBadcrc, .ppBadcrc]

theorem dropsOneByte_of_isWait {i : Instr} (h : isWait i = true) : dropsOneByte i = false := by
  obtain (rfl | rfl) | rfl : (i = .ahWait ∨ i = .hpWait) ∨ i = .ppWait := by simpa [isWait] using h
  all_goals rfl

/-- `decoder_cases` by traffic: a transition moves nothing, drops one byte and reports at most one code, or (PP.EMIT) moves the frame
from the buffer to `out`. -/
theorem State.decoderStep_traffic (s : State) :
    (dropsOneByte s.nextOp = false ∧ s.decoderStep.buf = s.buf ∧ s.decoderStep.out = s.out ∧ s.decoderStep.dg = s.dg) ∨
    (dropsOneByte s.nextOp = true ∧ 1 ≤ s.buf.length ∧ s.decoderStep.buf = s.buf.drop 1 ∧ s.decoderStep.out = s.out ∧
      (s.decoderStep.dg = s.dg ∨ (s.cfg.diagEn = true ∧ ∃ c, s.decoderStep.dg = s.dg ++ [c]))) ∨
    (s.nextOp = .ppEmit ∧ ∃ t l, s.fs = .payloadPending t l ∧ frameLen l ≤ s.buf.length ∧ s.buf.payOk l = true ∧
      s.decoderStep.buf = s.buf.drop (frameLen l) ∧ s.decoderStep.out = s.out ++ [⟨t, s.buf.frame l⟩] ∧
      s.decoderStep.dg = s.dg) := by
  have resync : ∀ {c}, dropsOneByte s.nextOp = true → 1 ≤ s.buf.length → s.decoderStep = s.raiseResync c →
      dropsOneByte s.nextOp = true ∧ 1 ≤ s.buf.length ∧ s.decoderStep.buf = s.buf.drop 1 ∧ s.decoderStep.out = s.out ∧
        (s.decoderStep.dg = s.dg ∨ (s.cfg.diagEn = true ∧ ∃ c, s.decoderStep.dg = s.dg ++ [c])) := by
    intro c hn hlen he
    refine ⟨hn, hlen, by simp [he], by simp [he], ?_⟩
    cases hd : s.cfg.diagEn <;> simp [he, hd]
  obtain ⟨hq, he⟩ | ⟨hn, -, ⟨rest, hb⟩, he⟩ | ⟨hn, -, hl, -, he⟩ | ⟨hn, -, -, -, t, l, -, he⟩ | ⟨hn, -, hl, -, -, he⟩ |
    ⟨hn, -, hl, -, he⟩ | ⟨t, l, hf, hl, ⟨hn, hok, he⟩ | ⟨hn, -, he⟩⟩ := (decoder_cases s).2
  · exact .inl ⟨dropsOneByte_of_isWait hq, by simp only [he, and_self]⟩
  · exact .inr (.inl ⟨hn ▸ rfl, by simp [hb], by simp [he]⟩)
  · exact .inr (.inl (resync (hn ▸ rfl) (by omega) he))
  · exact .inl ⟨hn ▸ rfl, by simp [he]⟩
  · exact .inr (.inl (resync (hn ▸ rfl) (by omega) he))
  · exact .inr (.inl (resync (hn ▸ rfl) (by omega) he))
  · have hframe : frameLen l ≤ s.buf.length := by simp only [frameLen, Config.frameOverhead]; omega
    exact .inr (.inr ⟨hn, t, l, hf, hframe, hok, by simp [he]⟩)
  · exact .inr (.inl (resync (hn ▸ rfl) (by omega) he))

/-! ### The invariant over one operation -/

theorem inv_resetBlock {s : State} (h : s.inv = true) : s.resetBlock.inv = true := by
  obtain ⟨-, -, -, -, -, hcfg⟩ := (State.inv_iff s).mp h
  exact resetMeetsInvariant s.cfg hcfg

theorem inv_setClosed {s : State} (h : s.inv = true) (hq : s.quiescent = true) : s.setClosed.inv = true := by
  obtain ⟨hfs, -, hrest⟩ := (State.inv_iff s).mp h
  exact (State.inv_iff _).mpr ⟨hfs, fun _ => hq, hrest⟩

/-- No byte that (HP) or (PP) speaks of is touched by an append. -/
theorem frameStateOk_append {s : State} (x : List Byte) (h : frameStateOk s = true) : frameStateOk (s.append x) = true := by
  cases hf : s.fs with
  | awaitingHeader => exact frameStateOk_awaitingHeader hf
  | headerPending =>
    rw [frameStateOk_headerPending hf] at h
    have hpos : 0 < s.buf.length := (List.getElem?_eq_some_iff.mp h).1
    exact (frameStateOk_headerPending (s := s.append x) hf).mpr ((Memory.byteAt_append s.buf x hpos).trans h)
  | payloadPending t l =>
    obtain ⟨hlen, hrec⟩ := (frameStateOk_payloadPending hf).mp h
    refine (frameStateOk_payloadPending (s := s.append x) hf).mpr ⟨?_, (Memory.headerRecorded_append x t l hlen).mpr hrec⟩
    simp only [State.append_buf, List.length_append]
    omega

theorem inv_append {s : State} {x : List Byte} (h : s.inv = true) (hopen : s.closed = false) (hfits : s.fits x = true) :
    (s.append x).inv = true := by
  obtain ⟨hfs, -, hout, -, hdg, hcfg⟩ := (State.inv_iff s).mp h
  refine (State.inv_iff _).mpr ⟨frameStateOk_append x hfs, by simp [hopen], hout, ?_, hdg, hcfg⟩
  exact (withinCap_iff _).mpr fun n hn => by simpa using (State.fits_iff s x).mp hfits n hn

/-- AH.SYNC retains the marker's `0xFC` as `B[0]`, and HP.ACCEPT records the fields of a header it has checked. -/
theorem frameStateOk_decoderStep {s : State} (h : frameStateOk s = true) : frameStateOk s.decoderStep = true := by
  obtain ⟨-, he⟩ | ⟨-, -, ⟨rest, hb⟩, he⟩ | ⟨-, -, -, -, he⟩ | ⟨-, hf, hlen, hok, t, l, hfields, he⟩ | ⟨-, -, -, -, -, he⟩ |
    ⟨-, -, -, -, he⟩ | ⟨t, l, -, -, ⟨-, -, he⟩ | ⟨-, -, he⟩⟩ := (decoder_cases s).2 <;> rw [he]
  case inl => exact h
  case inr.inl => exact (frameStateOk_headerPending rfl).mpr (by simp [hb, Memory.byteAt])
  case inr.inr.inr.inl =>
    obtain ⟨htype, hplen⟩ := Memory.headerFields_eq_some.mp hfields
    exact (frameStateOk_payloadPending rfl).mpr ⟨hlen, (frameStateOk_headerPending hf).mp h, hok, htype, hplen⟩
  all_goals exact frameStateOk_awaitingHeader (by simp)

/-- The packet PP.EMIT emits is the front of the buffer, so it begins with the recorded header and passes the check just made. -/
theorem packetOk_frame {s : State} {t : PacketType} {l : Byte} (hf : s.fs = .payloadPending t l) (h : frameStateOk s = true)
    (hlen : frameLen l ≤ s.buf.length) (hok : s.buf.payOk l = true) : packetOk ⟨t, s.buf.frame l⟩ = true := by
  obtain ⟨-, hrec⟩ := (frameStateOk_payloadPending hf).mp h
  have hframe : (s.buf.frame l).length = frameLen l := Memory.frame_length hlen
  rw [← s.buf.frame_append_drop l] at hrec hok
  rw [Memory.headerRecorded_append _ t l (by simp only [hframe, frameLen, Config.frameOverhead]; omega)] at hrec
  rw [Memory.payOk_append _ hframe.ge] at hok
  exact (packetOk_iff _).mpr ⟨l, hrec, hframe, hok⟩

theorem packetOk_decoderStep {s : State} (hfs : frameStateOk s = true) (h : ∀ p ∈ s.out, packetOk p = true) :
    ∀ p ∈ s.decoderStep.out, packetOk p = true := by
  obtain ⟨-, -, ho, -⟩ | ⟨-, -, -, ho, -⟩ | ⟨-, t, l, hf, hlen, hok, -, ho, -⟩ := s.decoderStep_traffic
  · rwa [ho]
  · rwa [ho]
  · rw [ho]
    intro p hp
    obtain hp | rfl := List.mem_append.mp hp |>.imp_right List.mem_singleton.mp
    · exact h p hp
    · exact packetOk_frame hf hfs hlen hok

/-- A closed block is quiescent, and there the decoder changes nothing. -/
theorem closed_quiescent_decoderStep {s : State} (h : s.closed = true → s.quiescent = true) :
    s.decoderStep.closed = true → s.decoderStep.quiescent = true := by
  intro hc
  have hq : s.quiescent = true := h (s.decoderStep_frame.2.1 ▸ hc)
  rwa [State.decoderStep_of_quiescent hq]

theorem inv_decoderStep {s : State} (h : s.inv = true) : s.decoderStep.inv = true := by
  obtain ⟨hfs, hclosed, hout, hcap, hdg, hcfg⟩ := (State.inv_iff s).mp h
  obtain ⟨hc, -, -, hshrinks, hsilent⟩ := s.decoderStep_frame
  refine (State.inv_iff _).mpr ⟨frameStateOk_decoderStep hfs, closed_quiescent_decoderStep hclosed,
    packetOk_decoderStep hfs hout, (withinCap_iff _).mpr fun n hn => ?_, fun hd => ?_, hc ▸ hcfg⟩
  · exact hshrinks.trans ((withinCap_iff s).mp hcap n (hc ▸ hn))
  · rw [hc] at hd
    exact (hsilent hd).trans (hdg hd)

/-- Settles O31: RESET, an admitted PUSH, an admitted CLOSE and a decoder transition each keep the invariant, which does not read the
environment's queue (`inv_popInbox`). -/
theorem stepKeepsInvariant : Obligations.StepKeepsInvariant := by
  intro s t hinv hstep
  have hpop : s.popInbox.inv = true := (inv_popInbox s).trans hinv
  obtain ⟨_, -, rfl⟩ | ⟨x, _, -, -, hopen, -, hfits, rfl⟩ | ⟨_, -, -, hq, rfl⟩ | ⟨-, u, hu, rfl⟩ := step_cases hstep
  case inl => exact inv_resetBlock hpop
  case inr.inl => exact inv_append hpop hopen hfits
  case inr.inr.inl => exact inv_setClosed hpop hq
  case inr.inr.inr =>
    obtain rfl | rfl := hu
    · exact inv_decoderStep hinv
    · exact inv_decoderStep hpop

/-! ### The buffer and the traces over one step -/

theorem State.decoderStep_buf_eq_drop (s : State) : ∃ n, n ≤ s.buf.length ∧ s.decoderStep.buf = s.buf.drop n := by
  obtain ⟨-, hb, -⟩ | ⟨-, hlen, hb, -⟩ | ⟨-, _, l, -, hlen, -, hb, -⟩ := s.decoderStep_traffic
  · exact ⟨0, Nat.zero_le _, hb⟩
  · exact ⟨1, hlen, hb⟩
  · exact ⟨frameLen l, hlen, hb⟩

/-- Settles O24: RESET empties the buffer, PUSH appends to it, CLOSE leaves it, and a transition drops its front
(`State.decoderStep_buf_eq_drop`). -/
theorem bufferMovesOnlyAtItsEnds : Obligations.BufferMovesOnlyAtItsEnds := by
  intro s t hstep
  obtain ⟨rest, hi, rfl⟩ | ⟨x, rest, hi, hx, hopen, hq, -, rfl⟩ | ⟨_, -, -, -, rfl⟩ | ⟨-, u, hu, rfl⟩ := step_cases hstep
  case inl => exact .inr (.inr ⟨rest, hi, rfl⟩)
  case inr.inl => exact .inl ⟨x, rest, hi, hx, hopen, hq, rfl⟩
  case inr.inr.inl => exact .inr (.inl ⟨0, Nat.zero_le _, rfl⟩)
  case inr.inr.inr =>
    obtain rfl | rfl := hu
    · exact .inr (.inl u.decoderStep_buf_eq_drop)
    · exact .inr (.inl s.popInbox.decoderStep_buf_eq_drop)

theorem State.decoderStep_traces_grow (s : State) :
    (s.decoderStep.out = s.out ∨ (s.nextOp = .ppEmit ∧ s.decoderStep.dg = s.dg ∧ ∃ p, s.decoderStep.out = s.out ++ [p])) ∧
    (s.decoderStep.dg = s.dg ∨ (s.cfg.diagEn = true ∧ s.decoderStep.out = s.out ∧ ∃ c, s.decoderStep.dg = s.dg ++ [c])) := by
  obtain ⟨-, -, ho, hd⟩ | ⟨-, -, -, ho, hd⟩ | ⟨hn, t, l, -, -, -, -, ho, hd⟩ := s.decoderStep_traffic
  · exact ⟨.inl ho, .inl hd⟩
  · exact ⟨.inl ho, hd.imp_right fun ⟨hen, hc⟩ => ⟨hen, ho, hc⟩⟩
  · exact ⟨.inr ⟨hn, hd, _, ho⟩, .inl hd⟩

/-- Settles O25: PUSH and CLOSE write neither trace, and a transition is covered by `State.decoderStep_traces_grow`. -/
theorem tracesOnlyGrow : Obligations.TracesOnlyGrow := by
  intro s t hstep hreset
  obtain ⟨rest, hi, -⟩ | ⟨x, _, -, -, -, -, -, rfl⟩ | ⟨_, -, -, -, rfl⟩ | ⟨-, u, hu, rfl⟩ := step_cases hstep
  case inl => exact absurd hi (hreset rest)
  case inr.inl => exact ⟨.inl rfl, .inl rfl⟩
  case inr.inr.inl => exact ⟨.inl rfl, .inl rfl⟩
  case inr.inr.inr =>
    obtain rfl | rfl := hu
    · exact u.decoderStep_traces_grow
    · simpa using s.popInbox.decoderStep_traces_grow

/-! ### The environment's operations as equivalences -/

theorem execPush_eq_next {s t : State} {x : List Byte} : execPush x s = .next t ↔
    x ≠ [] ∧ s.closed = false ∧ s.quiescent = true ∧ s.fits x = true ∧ s.append x = t := by
  cases x with
  | nil => simp [execPush]
  | cons b x => cases hc : s.closed <;> cases hq : s.quiescent <;> cases hf : s.fits (b :: x) <;> simp [execPush, hc, hq, hf]

theorem execClose_eq_next {s t : State} : execClose s = .next t ↔ s.closed = false ∧ s.quiescent = true ∧ s.setClosed = t := by
  cases hc : s.closed <;> cases hq : s.quiescent <;> simp [execClose, hc, hq]

/-- Settles O29: a closed block is quiescent (R31), so the decoder waits, and admission of PUSH and CLOSE needs an open block. -/
theorem closedBlockIsFrozen : Obligations.ClosedBlockIsFrozen := by
  intro s hinv hclosed
  obtain ⟨-, hquiet, -⟩ := (State.inv_iff s).mp hinv
  have hq : s.quiescent = true := hquiet hclosed
  refine ⟨fun t hstep hreset => ?_, fun x t h => ?_, fun t h => ?_⟩
  · obtain ⟨rest, hi, -⟩ | ⟨x, _, -, -, hopen, -⟩ | ⟨_, -, hopen, -⟩ | ⟨-, u, hu, rfl⟩ := step_cases hstep
    case inl => exact absurd hi (hreset rest)
    case inr.inl => simp [hclosed] at hopen
    case inr.inr.inl => simp [hclosed] at hopen
    case inr.inr.inr =>
      obtain rfl | rfl := hu
      · rw [State.decoderStep_of_quiescent hq]
      · rw [State.decoderStep_of_quiescent (s := s.popInbox) hq]
        rfl
  · obtain ⟨-, hopen, -⟩ := execPush_eq_next.mp h
    simp [hclosed] at hopen
  · obtain ⟨hopen, -⟩ := execClose_eq_next.mp h
    simp [hclosed] at hopen

/-! ### No byte is lost along a drain -/

/-- A transition splits the buffer into the frame it emits, the byte it drops, and what is left (R23). -/
theorem State.decoderStep_splits_buf (s : State) : ∃ (ps : List ValidatedPacket) (d : List Byte),
    s.decoderStep.out = s.out ++ ps ∧ s.buf = (ps.map ValidatedPacket.bytes).flatten ++ d ++ s.decoderStep.buf ∧
    d.length = [s.nextOp].countP dropsOneByte := by
  obtain ⟨hn, hb, ho, -⟩ | ⟨hn, hlen, hb, ho, -⟩ | ⟨hn, t, l, -, -, -, hb, ho, -⟩ := s.decoderStep_traffic
  · exact ⟨[], [], by simp [ho], by simp [hb], by simp [hn]⟩
  · exact ⟨[], s.buf.take 1, by simp [ho], by rw [hb]; exact (List.take_append_drop 1 s.buf).symm, by simp [hn, hlen]⟩
  · exact ⟨[⟨t, s.buf.frame l⟩], [], ho, by simp [hb, Memory.frame_append_drop], by rw [hn]; rfl⟩

/-- A drain splits the buffer in order: the frames it emits and what is left are in it, and the rest was dropped byte by byte. -/
theorem State.drain_splits_buf (s : State) : ∃ ps : List ValidatedPacket, s.drain.out = s.out ++ ps ∧ s.drain.buf <:+ s.buf ∧
    ((ps.map ValidatedPacket.bytes).flatten ++ s.drain.buf).Sublist s.buf ∧
    s.drain.buf.length + (ps.map (fun p => p.bytes.length)).sum + s.drainOps.countP dropsOneByte = s.buf.length := by
  induction s using State.drain_induction with
  | stop s hq =>
    obtain ⟨hs, hops⟩ := State.drain_of_quiescent hq
    exact ⟨[], by simp [hs], by simp [hs], by simp [hs], by simp [hs, hops]⟩
  | turn s hq ih =>
    obtain ⟨ps, hout, hsuffix, hsub, hcount⟩ := ih
    obtain ⟨qs, d, hout₁, hbuf, hd⟩ := s.decoderStep_splits_buf
    obtain ⟨hs, hops⟩ := State.drain_unfold hq
    rw [hs, hops]
    refine ⟨qs ++ ps, by rw [hout, hout₁, List.append_assoc], ?_, ?_, ?_⟩
    · rw [hbuf]
      exact hsuffix.trans (List.suffix_append _ _)
    · rw [hbuf, List.map_append, List.flatten_append, List.append_assoc, List.append_assoc]
      exact (List.Sublist.refl _).append (hsub.trans (List.sublist_append_right d _))
    · have hlen := congrArg List.length hbuf
      have hframes : (qs.map ValidatedPacket.bytes).flatten.length = (qs.map (fun p => p.bytes.length)).sum := by
        simp [List.length_flatten, Function.comp_def]
      rw [← List.singleton_append, List.countP_append, List.map_append, List.sum_append]
      simp only [List.length_append] at hlen
      omega

/-- Settles O41: the stream is the buffer of the state that is drained, whose trace is empty (`State.drain_splits_buf`). -/
theorem noByteIsLost : Obligations.NoByteIsLost := by
  intro cfg x
  obtain ⟨ps, hout, hsuffix, hsub, hcount⟩ := (({ State.reset with cfg := cfg } : State).append x).drain_splits_buf
  obtain rfl : (decodeStream cfg x).out = ps := hout
  rw [List.countP_eq_length_filter] at hcount
  exact ⟨hsuffix, hsub, hcount⟩

/-! ### The diagnostics influence nothing -/

theorem State.decoderStep_of_exec {s t : State} {i : Instr} (hn : s.nextOp = i) (he : exec i s = .next t) : s.decoderStep = t := by
  simp [State.decoderStep, hn, he]

/-- The state with another `DIAG_EN` and another diagnostic trace. -/
def State.withDiagnostics (s : State) (b : Bool) (d : List DiagCode) : State :=
  { s with cfg := { s.cfg with diagEn := b }, dg := d }

theorem State.withDiagnostics_nextOp (s : State) (b : Bool) (d : List DiagCode) : (s.withDiagnostics b d).nextOp = s.nextOp :=
  State.nextOp_congr rfl rfl

theorem State.withDiagnostics_quiescent (s : State) (b : Bool) (d : List DiagCode) :
    (s.withDiagnostics b d).quiescent = s.quiescent :=
  State.quiescent_congr rfl rfl

theorem State.withDiagnostics_raiseResync (s : State) (b : Bool) (d : List DiagCode) (c : DiagCode) :
    (s.withDiagnostics b d).raiseResync c = (s.raiseResync c).withDiagnostics b (if b then d ++ [c] else d) := by
  apply State.eq_of_fields <;> simp [State.withDiagnostics]

theorem State.withDiagnostics_decoderStep_of_selected {s t : State} {b : Bool} {d d' : List DiagCode} {i : Instr}
    (hn : s.nextOp = i) (he : s.decoderStep = t)
    (hexec : exec i (s.withDiagnostics b d) = (s.withDiagnostics b d).whenSelected i (t.withDiagnostics b d')) :
    (s.withDiagnostics b d).decoderStep = s.decoderStep.withDiagnostics b d' := by
  have hn' : (s.withDiagnostics b d).nextOp = i := (s.withDiagnostics_nextOp b d).trans hn
  rw [he]
  exact State.decoderStep_of_exec hn' (hexec.trans (State.whenSelected_of_eq _ hn'))

/-- A transition is selected without them, and its effect writes them nowhere but, for a resynchronisation, at the end of `dg`. -/
theorem State.withDiagnostics_decoderStep (s : State) (b : Bool) (d : List DiagCode) : ∃ d',
    (s.withDiagnostics b d).decoderStep = s.decoderStep.withDiagnostics b d' ∧ (b = false → d' = d) := by
  have resync : ∀ {i c}, s.nextOp = i → s.decoderStep = s.raiseResync c →
      exec i (s.withDiagnostics b d) = (s.withDiagnostics b d).whenSelected i ((s.withDiagnostics b d).raiseResync c) →
      ∃ d', (s.withDiagnostics b d).decoderStep = s.decoderStep.withDiagnostics b d' ∧ (b = false → d' = d) := by
    intro i c hn he hexec
    rw [State.withDiagnostics_raiseResync] at hexec
    exact ⟨_, State.withDiagnostics_decoderStep_of_selected hn he hexec, by rintro rfl; rfl⟩
  obtain ⟨hq, he⟩ | ⟨hn, -, -, he⟩ | ⟨hn, -, -, -, he⟩ | ⟨hn, -, -, -, t, l, hfields, he⟩ | ⟨hn, -, -, -, -, he⟩ |
    ⟨hn, -, -, -, he⟩ | ⟨t, l, hf, -, ⟨hn, -, he⟩ | ⟨hn, -, he⟩⟩ := (decoder_cases s).2
  · refine ⟨d, ?_, fun _ => rfl⟩
    rw [he, State.decoderStep_of_quiescent ((s.withDiagnostics_quiescent b d).trans hq)]
  · exact ⟨d, State.withDiagnostics_decoderStep_of_selected hn he rfl, fun _ => rfl⟩
  · exact resync hn he rfl
  · have hfields' : (s.withDiagnostics b d).buf.headerFields = some (t, l) := hfields
    exact ⟨d, State.withDiagnostics_decoderStep_of_selected hn he (by simp only [exec, execHpAccept, hfields']; rfl), fun _ => rfl⟩
  · exact resync hn he rfl
  · exact resync hn he rfl
  · have hf' : (s.withDiagnostics b d).fs = .payloadPending t l := hf
    exact ⟨d, State.withDiagnostics_decoderStep_of_selected hn he (by simp only [exec, execPpEmit, hf']; rfl), fun _ => rfl⟩
  · exact resync hn he rfl

theorem execPush_withDiagnostics {s t : State} {x : List Byte} (b : Bool) (d : List DiagCode) (h : execPush x s = .next t) :
    execPush x (s.withDiagnostics b d) = .next (t.withDiagnostics b d) := by
  obtain ⟨hx, hopen, hq, hfits, rfl⟩ := execPush_eq_next.mp h
  exact execPush_eq_next.mpr ⟨hx, hopen, (s.withDiagnostics_quiescent b d).trans hq, hfits, rfl⟩

theorem execClose_withDiagnostics {s t : State} (b : Bool) (d : List DiagCode) (h : execClose s = .next t) :
    execClose (s.withDiagnostics b d) = .next (t.withDiagnostics b d) := by
  obtain ⟨hopen, hq, rfl⟩ := execClose_eq_next.mp h
  exact execClose_eq_next.mpr ⟨hopen, (s.withDiagnostics_quiescent b d).trans hq, rfl⟩

/-- O27, through `withDiagnostics`: by what the environment offers (`step_of_inbox`). -/
theorem step_withDiagnostics {s t : State} (b : Bool) (d : List DiagCode) (h : step s = .next t) : ∃ d',
    step (s.withDiagnostics b d) = .next (t.withDiagnostics b d') ∧ (b = false → d' = d ∨ d' = []) := by
  have decoder : ∀ {u : State} {o : Outcome}, o = .next (u.withDiagnostics b d).decoderStep →
      ∃ d', o = .next (u.decoderStep.withDiagnostics b d') ∧ (b = false → d' = d ∨ d' = []) := by
    rintro u _ rfl
    obtain ⟨d', he, hd'⟩ := u.withDiagnostics_decoderStep b d
    exact ⟨d', congrArg _ he, fun hb => .inl (hd' hb)⟩
  have hinbox : (s.withDiagnostics b d).inbox = s.inbox := rfl
  rw [step_of_inbox] at h ⊢
  rw [hinbox, State.withDiagnostics_quiescent]
  rcases hi : s.inbox with _ | ⟨_ | x | _ | _, rest⟩ <;> rw [hi] at h
  · cases h
    exact decoder (u := s) rfl
  · cases h
    exact decoder (u := s.popInbox) rfl
  · cases hq : s.quiescent <;> rw [hq] at h
    · cases h
      exact decoder (u := s) rfl
    · exact ⟨d, execPush_withDiagnostics b d h, fun _ => .inl rfl⟩
  · cases hq : s.quiescent <;> rw [hq] at h
    · cases h
      exact decoder (u := s) rfl
    · exact ⟨d, execClose_withDiagnostics b d h, fun _ => .inl rfl⟩
  · cases h
    exact ⟨[], rfl, fun _ => .inr rfl⟩

/-- Settles O27: `DIAG_EN` and `dg` are in no condition of a step and in no effect but on `dg` (`step_withDiagnostics`). -/
theorem diagnosticsInfluenceNothing : Obligations.DiagnosticsInfluenceNothing :=
  fun _ _ b d h => step_withDiagnostics b d h

end Sys2Proof.Machine

namespace Sys2Proof

open Machine

/-! ### The three word formats, each with its encoder and its decoder (30_encoding.md) -/

/-- R62: a packet type's operation is encoded as its header region. -/
@[simp] theorem encode_headerInstr (p : PacketType) (l r c : Byte) : encode (headerInstr p l r c) = headerBytes p l r c := by
  cases p <;> rfl

/-- R62, R71 to R75: the header regions that decode are the five patterns, each to its own type with its three fields. -/
theorem decodeHeader_eq_ok {bs : List Byte} {i : Instr} :
    decodeHeader bs = .ok i ↔ ∃ p l r c, bs = headerBytes p l r c ∧ i = headerInstr p l r c := by
  constructor
  · intro h
    unfold decodeHeader at h
    split at h
    · next m t l r c =>
      by_cases hm : m = Config.sync1
      · cases hp : ptype t with
        | none => simp [hm, hp] at h
        | some p =>
          obtain rfl : headerInstr p l r c = i := by simpa [hm, hp] using h
          exact ⟨p, l, r, c, by rw [headerBytes, ← hm, ptype_eq_some hp], rfl⟩
      · simp [hm] at h
    · cases h
  · rintro ⟨p, l, r, c, rfl, rfl⟩
    simp [headerBytes, decodeHeader]

/-- The marker byte alone sends the decoder to the header region's format. -/
theorem decode_sync1_cons (rest : List Byte) : decode (Config.sync1 :: rest) = decodeHeader (Config.sync1 :: rest) := rfl

theorem decode_headerBytes (p : PacketType) (l r c : Byte) : decode (headerBytes p l r c) = .ok (headerInstr p l r c) :=
  (decode_sync1_cons _).trans (decodeHeader_eq_ok.mpr ⟨p, l, r, c, rfl, rfl⟩)

/-- R82: an event code decodes with the operand its event takes, and with no other. -/
theorem decodeEvent_eq_ok {code : BitVec 2} {x : List Byte} {i : Instr} : decodeEvent code x = .ok i ↔
    (code = 0b01#2 ∧ x ≠ [] ∧ i = .push x) ∨ (code = 0b10#2 ∧ x = [] ∧ i = .close) ∨ (code = 0b11#2 ∧ x = [] ∧ i = .reset) := by
  obtain rfl | rfl | rfl | rfl : code = 0b00#2 ∨ code = 0b01#2 ∨ code = 0b10#2 ∨ code = 0b11#2 := by
    revert code; decide
  all_goals cases x <;> simp [decodeEvent, eq_comm]

/-- R81: a decision word that decodes matches the row of its transition. -/
theorem row_of_decodeDecision {dw : BitVec 5} {i : Instr} (h : decodeDecision dw = .ok i) :
    ∃ r ∈ decisionRows, r.op = i ∧ dw &&& r.mask = r.pat := by
  unfold decodeDecision at h
  split at h
  · cases h
  · next r rows hrows =>
    cases h
    have hr : r ∈ matchingRows dw := hrows ▸ List.mem_cons_self
    obtain ⟨hmem, hmatch⟩ := List.mem_filter.mp hr
    exact ⟨r, hmem, rfl, by simpa using hmatch⟩

/-- Settles O54: a header region by `decode_headerBytes`, a chunk by `decodeEvent_eq_ok`, and the events without operand and the ten
decision words, which are single bytes, by evaluation. -/
theorem decodeOfEncode : Obligations.DecodeOfEncode := by
  intro i hwf
  cases i with
  | push x => exact decodeEvent_eq_ok.mpr (.inl ⟨rfl, by simpa [Instr.wf, chunkOk] using hwf, rfl⟩)
  | nonsense l r c => exact decode_headerBytes .nonsense l r c
  | imu l r c => exact decode_headerBytes .imu l r c
  | ahrs l r c => exact decode_headerBytes .ahrs l r c
  | insgps l r c => exact decode_headerBytes .insGps l r c
  | raw l r c => exact decode_headerBytes .raw l r c
  | _ => rfl

/-- An event is encoded as its code, in a whole byte, and its operand (R82, log 8). -/
theorem encode_of_decodeEvent {code : BitVec 2} {x : List Byte} {i : Instr} (h : decodeEvent code x = .ok i) :
    encode i = code.setWidth 8 :: x := by
  obtain ⟨rfl, -, rfl⟩ | ⟨rfl, rfl, rfl⟩ | ⟨rfl, rfl, rfl⟩ := decodeEvent_eq_ok.mp h
  all_goals rfl

/-- Settles O55: by the format that the first byte names. A header region and an event are decoded exactly, a decision word by the row it
matches. -/
theorem decodedBytesAreTheEncoding : Obligations.DecodedBytesAreTheEncoding := by
  intro bs i h
  unfold decode at h
  split at h
  · cases h
  · next b rest =>
    split at h
    · obtain ⟨p, l, r, c, hbs, rfl⟩ := decodeHeader_eq_ok.mp h
      exact .inl (by rw [hbs, encode_headerInstr])
    split at h
    · next hb =>
      have hcode : (b.setWidth 2).setWidth 8 = b := by obtain rfl | rfl | rfl := hb <;> rfl
      exact .inl (by rw [encode_of_decodeEvent h, hcode])
    split at h
    · next hlt =>
      split at h
      · next hrest =>
        obtain ⟨r, hr, hop, hmatch⟩ := row_of_decodeDecision h
        exact .inr ⟨b, r, by simpa using hrest, hr, hop, hlt, hmatch⟩
      · cases h
    · cases h

/-- R62: a 40-bit word with a packet type's two fixed bytes is that type's header region, `B[0]` in its top byte. -/
theorem headerWordBytes_of_row {w : Nat} (p : PacketType)
    (h : w &&& 0xFFFF000000 = 0xFC00000000 + (typeCode p).toNat * 2 ^ 24) :
    headerWordBytes w = headerBytes p (BitVec.ofNat 8 (w / 2 ^ 16)) (BitVec.ofNat 8 (w / 2 ^ 8)) (BitVec.ofNat 8 w) := by
  have hfixed : w / 2 ^ 24 % 2 ^ 16 = 0xFC00 + (typeCode p).toNat := by
    calc w / 2 ^ 24 % 2 ^ 16 = w >>> 24 &&& 0xFFFF000000 >>> 24 := by
          rw [← Nat.shiftRight_eq_div_pow, ← Nat.and_two_pow_sub_one_eq_mod]
          rfl
      _ = (w &&& 0xFFFF000000) / 2 ^ 24 := by rw [← Nat.shiftRight_and_distrib, Nat.shiftRight_eq_div_pow]
      _ = 0xFC00 + (typeCode p).toNat := by omega
  have h₀ : BitVec.ofNat 8 (w / 2 ^ 32) = Config.sync1 := BitVec.eq_of_toNat_eq (by simp; omega)
  have h₁ : BitVec.ofNat 8 (w / 2 ^ 24) = typeCode p := BitVec.eq_of_toNat_eq (by simp; omega)
  simp only [headerWordBytes, headerBytes, Nat.shiftRight_eq_div_pow, h₀, h₁]

theorem decodeTableWord_of_row {w : Nat} (p : PacketType) (hw : w < 2 ^ 40)
    (h : w &&& 0xFFFF000000 = 0xFC00000000 + (typeCode p).toNat * 2 ^ 24) :
    decodeTableWord 40 w =
      some (headerInstr p (BitVec.ofNat 8 (w / 2 ^ 16)) (BitVec.ofNat 8 (w / 2 ^ 8)) (BitVec.ofNat 8 w)) := by
  have hdecode := decode_headerBytes p (BitVec.ofNat 8 (w / 2 ^ 16)) (BitVec.ofNat 8 (w / 2 ^ 8)) (BitVec.ofNat 8 w)
  rw [← headerWordBytes_of_row p h] at hdecode
  simpa [decodeTableWord, hdecode, Except.toOption] using hw

/-- Settles O56: each row is `decodeTableWord_of_row` at its packet type. -/
theorem headerWordsDecodeByTheirRow : Obligations.HeaderWordsDecodeByTheirRow := fun _ hw =>
  ⟨decodeTableWord_of_row .nonsense hw, decodeTableWord_of_row .imu hw, decodeTableWord_of_row .ahrs hw,
    decodeTableWord_of_row .insGps hw, decodeTableWord_of_row .raw hw⟩

/-- Settles O57: the seven words of an operation are its encoding (`decodeOfEncode`, `decode_headerBytes`); the two others are of an
illegal type code and of `fs = 11`. -/
theorem specWordsDecode : Obligations.SpecWordsDecode :=
  ⟨decodeOfEncode .reset rfl, decodeOfEncode (.push [0xFC#8, 0x40#8]) rfl, decodeOfEncode .close rfl, decodeOfEncode .ahSync rfl,
    decodeOfEncode .hpAccept rfl, decodeOfEncode .ppEmit rfl, decode_headerBytes .imu 0x04#8 0x01#8 0x37#8, rfl, rfl⟩

end Sys2Proof

namespace Sys2Proof.Machine

/-! ### A packet type's operation judges the header at the front of `B` (log 7) -/

theorem exec_headerInstr (s : State) (p : PacketType) (l r c : Byte) : exec (headerInstr p l r c) s = s.judgeHeader p l r c := by
  cases p <;> rfl

theorem Memory.header_eq_headerBytes_iff {b : Memory} {p : PacketType} {l r c : Byte} :
    b.header = headerBytes p l r c ↔ ∃ rest, b = headerBytes p l r c ++ rest := by
  constructor
  · intro h
    exact ⟨b.drop 5, by rw [← h, Memory.header_eq_take, List.take_append_drop]⟩
  · rintro ⟨rest, rfl⟩
    rfl

/-- R77, R141, R183: a header at the front is accepted or resynchronised, by its residue. -/
theorem State.judgeHeader_of_front {s : State} {p : PacketType} {l r c : Byte} {rest : List Byte} (hf : s.fs = .headerPending)
    (hb : s.buf = headerBytes p l r c ++ rest) : s.judgeHeader p l r c =
      if crc8 (headerBytes p l r c) = 0x00#8 then .next (s.recordHeader p l) else .next (s.raiseResync .badHdrCrc) := by
  have hheader : s.buf.header = headerBytes p l r c := Memory.header_eq_headerBytes_iff.mpr ⟨rest, hb⟩
  simp [State.judgeHeader, hf, Memory.hdrOk, hheader]

theorem State.judgeHeader_elsewhere {s : State} {p : PacketType} {l r c : Byte}
    (h : ¬ (s.fs = .headerPending ∧ ∃ rest, s.buf = headerBytes p l r c ++ rest)) :
    s.judgeHeader p l r c = .refused .notEnabled := by
  rw [← Memory.header_eq_headerBytes_iff] at h
  simp only [State.judgeHeader, if_neg h]

theorem exec_headerInstr_accepted {s : State} (p : PacketType) {l r c : Byte} {rest : List Byte} (hf : s.fs = .headerPending)
    (hb : s.buf = headerBytes p l r c ++ rest) (hcrc : crc8 (headerBytes p l r c) = 0x00#8) :
    exec (headerInstr p l r c) s = .next { s with fs := .payloadPending p l } := by
  rw [exec_headerInstr, State.judgeHeader_of_front hf hb, if_pos hcrc, State.recordHeader]

/-- Settles O15: each clause is `exec_headerInstr_accepted` at its packet type. -/
theorem packetTypesAccepted : Obligations.PacketTypesAccepted := fun _ _ _ _ _ hf =>
  ⟨exec_headerInstr_accepted .nonsense hf, exec_headerInstr_accepted .imu hf, exec_headerInstr_accepted .ahrs hf,
    exec_headerInstr_accepted .insGps hf, exec_headerInstr_accepted .raw hf⟩

/-- Settles O16: the header at the front is corrupt (`State.judgeHeader_of_front`), or there is none (`State.judgeHeader_elsewhere`). -/
theorem packetTypeHeadersElsewhere : Obligations.PacketTypeHeadersElsewhere := by
  intro s p l r c
  refine ⟨fun rest hf hb hcrc => ?_, fun h => ?_⟩
  · rw [exec_headerInstr, State.judgeHeader_of_front hf hb]
    refine (if_neg hcrc).trans ?_
    exact congrArg _ (by apply State.eq_of_fields <;> simp [hb])
  · rw [exec_headerInstr, State.judgeHeader_elsewhere h]

/-! ### The decision word -/

/-- The four fields of R80's word, read back. -/
theorem decisionWord_fields : ∀ (f : BitVec 2) (e o k : Bool),
    (f ++ BitVec.ofBool e ++ BitVec.ofBool o ++ BitVec.ofBool k).extractLsb' 3 2 = f ∧
    (f ++ BitVec.ofBool e ++ BitVec.ofBool o ++ BitVec.ofBool k).getLsbD 2 = e ∧
    (f ++ BitVec.ofBool e ++ BitVec.ofBool o ++ BitVec.ofBool k).getLsbD 1 = o ∧
    (f ++ BitVec.ofBool e ++ BitVec.ofBool o ++ BitVec.ofBool k).getLsbD 0 = k := by
  decide

section
variable (s : State)
@[simp] theorem State.decisionWord_fsField : s.decisionWord.extractLsb' 3 2 = fsCode s.fs := (decisionWord_fields _ _ _ _).1
@[simp] theorem State.decisionWord_enough : s.decisionWord.getLsbD 2 = s.enough := (decisionWord_fields _ _ _ _).2.1
@[simp] theorem State.decisionWord_okBit : s.decisionWord.getLsbD 1 = s.okBit := (decisionWord_fields _ _ _ _).2.2.1
@[simp] theorem State.decisionWord_knownBit : s.decisionWord.getLsbD 0 = s.knownBit := (decisionWord_fields _ _ _ _).2.2.2
end

theorem State.enough_iff (s : State) : s.enough = true ↔ s.need ≤ s.buf.length := decide_eq_true_iff

/-- `hdr_ok` on a whole header region (R66). -/
theorem Memory.hdrOk_iff (b : Memory) : b.hdrOk = true ↔ crc8 (b.take 5) = 0x00#8 := by
  rw [Memory.hdrOk, Memory.header_eq_take, beq_iff_eq]

theorem Memory.typeKnown_iff (b : Memory) : b.typeKnown = true ↔ ∃ t, b[1]? = some (typeCode t) := by
  cases h : b[1]? <;> simp [Memory.typeKnown, Memory.declaredType, Memory.byteAt, known_iff_typeCode, h]

theorem Memory.payOk_iff {b : Memory} {l : Byte} (h : l.toNat + 8 ≤ b.length) : b.payOk l = true ↔
    ∃ x y, b[5]? = some x ∧ b[6]? = some y ∧ crc16 ((b.drop 7).take l.toNat ++ [x, y]) = 0x0000#16 := by
  have hpayload : b.payload l = (b.drop 7).take l.toNat := by
    simp [Memory.payload, Memory.slice, Config.payloadOff, List.drop_take]
  have h₅ : 5 < b.length := by omega
  have h₆ : 6 < b.length := by omega
  have hfield : b.crcField = [b[5], b[6]] := by
    rw [Memory.crcField, Memory.slice, List.drop_take, List.drop_eq_getElem_cons h₅, List.drop_eq_getElem_cons h₆]
    rfl
  simp [Memory.payOk, hpayload, hfield, List.getElem?_eq_getElem h₅, List.getElem?_eq_getElem h₆]

theorem State.okBit_awaitingHeader {s : State} (hf : s.fs = .awaitingHeader) :
    s.okBit = true ↔ ∃ rest, s.buf = 0xFD#8 :: 0xFC#8 :: rest := by
  simp only [State.okBit, hf, Bool.and_eq_true, State.enough_iff, State.need, ← Memory.markerAtFront_iff, and_iff_right_iff_imp]
  intro h
  obtain ⟨rest, hb⟩ := (Memory.markerAtFront_iff _).mp h
  rw [hb]
  exact Nat.le_add_left 2 rest.length

theorem State.okBit_headerPending {s : State} (hf : s.fs = .headerPending) :
    s.okBit = true ↔ 5 ≤ s.buf.length ∧ crc8 (s.buf.take 5) = 0x00#8 := by
  simp only [State.okBit, hf, Bool.and_eq_true, State.enough_iff, State.need, Memory.hdrOk_iff]

theorem State.okBit_payloadPending {s : State} {t : PacketType} {l : Byte} (hf : s.fs = .payloadPending t l) :
    s.okBit = true ↔ l.toNat + 8 ≤ s.buf.length ∧
      ∃ x y, s.buf[5]? = some x ∧ s.buf[6]? = some y ∧ crc16 ((s.buf.drop 7).take l.toNat ++ [x, y]) = 0x0000#16 := by
  simp only [State.okBit, hf, Bool.and_eq_true, State.enough_iff, State.need, needLen]
  exact and_congr_right Memory.payOk_iff

/-- Settles O18: the fields of the word, and what each bit of it tests in each frame state. -/
theorem decisionWordBits : Obligations.DecisionWordBits := by
  intro s
  simp only [State.decisionWord_fsField, State.decisionWord_enough, State.decisionWord_okBit, State.decisionWord_knownBit,
    State.enough_iff]
  refine ⟨fun hf => ?_, fun hf => ?_, fun t l hf => ?_⟩
  · exact ⟨by rw [hf]; rfl, by simp [State.need, hf], State.okBit_awaitingHeader hf, by simp [State.knownBit, hf]⟩
  · refine ⟨by rw [hf]; rfl, by simp [State.need, hf], State.okBit_headerPending hf, ?_⟩
    simp only [State.knownBit, hf, Bool.and_eq_true, State.okBit_headerPending hf, Memory.typeKnown_iff, and_assoc]
  · exact ⟨by rw [hf]; rfl, by simp [State.need, hf, needLen], State.okBit_payloadPending hf, by simp [State.knownBit, hf]⟩

/-! ### `next_op` and the map of the decision word read the same bits in the same order (R81, R116) -/

theorem State.nextOp_awaitingHeader {s : State} (hf : s.fs = .awaitingHeader) :
    s.nextOp = if s.enough then if s.okBit then .ahSync else .ahSkip else .ahWait := by
  by_cases h : Config.ahNeed ≤ s.buf.length <;>
    simp only [State.nextOp, State.okBit, State.enough, State.need, hf, h, ← Nat.not_le] <;> rfl

theorem State.nextOp_headerPending {s : State} (hf : s.fs = .headerPending) :
    s.nextOp = if s.enough then if s.okBit then if s.knownBit then .hpAccept else .hpBadtype else .hpBadcrc else .hpWait := by
  by_cases h : Config.hdrLen ≤ s.buf.length <;> cases hok : s.buf.hdrOk <;>
    simp only [State.nextOp, State.knownBit, State.okBit, State.enough, State.need, hf, h, hok, ← Nat.not_le] <;> rfl

theorem State.nextOp_payloadPending {s : State} {t : PacketType} {l : Byte} (hf : s.fs = .payloadPending t l) :
    s.nextOp = if s.enough then if s.okBit then .ppEmit else .ppBadcrc else .ppWait := by
  by_cases h : needLen l ≤ s.buf.length <;>
    simp only [State.nextOp, State.okBit, State.enough, State.need, hf, h, ← Nat.not_le] <;> rfl

theorem decodeDecision_awaitingHeader : ∀ e o k : Bool,
    decodeDecision (0b00#2 ++ BitVec.ofBool e ++ BitVec.ofBool o ++ BitVec.ofBool k) =
      .ok (if e then if o then .ahSync else .ahSkip else .ahWait) := by
  decide

theorem decodeDecision_headerPending : ∀ e o k : Bool,
    decodeDecision (0b01#2 ++ BitVec.ofBool e ++ BitVec.ofBool o ++ BitVec.ofBool k) =
      .ok (if e then if o then if k then .hpAccept else .hpBadtype else .hpBadcrc else .hpWait) := by
  decide

theorem decodeDecision_payloadPending : ∀ e o k : Bool,
    decodeDecision (0b10#2 ++ BitVec.ofBool e ++ BitVec.ofBool o ++ BitVec.ofBool k) =
      .ok (if e then if o then .ppEmit else .ppBadcrc else .ppWait) := by
  decide

theorem decodeDecision_decisionWord (s : State) : decodeDecision s.decisionWord = .ok s.nextOp := by
  rw [State.decisionWord]
  cases hf : s.fs with
  | awaitingHeader =>
    rw [State.nextOp_awaitingHeader hf]
    exact decodeDecision_awaitingHeader _ _ _
  | headerPending =>
    rw [State.nextOp_headerPending hf]
    exact decodeDecision_headerPending _ _ _
  | payloadPending t l =>
    rw [State.nextOp_payloadPending hf]
    exact decodeDecision_payloadPending _ _ _

theorem matchingRows_length : ∀ dw : BitVec 5, dw.extractLsb' 3 2 ≠ 0b11#2 → (matchingRows dw).length = 1 := by
  decide

theorem fsCode_ne_three (fs : FrameState) : fsCode fs ≠ 0b11#2 := by
  cases fs <;> simp [fsCode]

/-- Settles O19: the selection by `decodeDecision_decisionWord`; the facts about all 32 words by evaluation. -/
theorem decisionWordSelectsNextOp : Obligations.DecisionWordSelectsNextOp :=
  ⟨fun s => ⟨decodeDecision_decisionWord s, matchingRows_length _ (by simpa using fsCode_ne_three s.fs)⟩, matchingRows_length,
    by decide⟩

/-! ### The illegal type codes -/

theorem known_iff_mem (t : Byte) : known t = true ↔ t ∈ [0x00#8, 0x40#8, 0x41#8, 0x42#8, 0x58#8] := by
  rw [known_iff_typeCode]
  constructor
  · rintro ⟨p, rfl⟩
    cases p <;> simp [typeCode]
  · intro h
    obtain rfl | rfl | rfl | rfl | rfl : t = 0x00#8 ∨ t = 0x40#8 ∨ t = 0x41#8 ∨ t = 0x42#8 ∨ t = 0x58#8 := by simpa using h
    exacts [⟨.nonsense, rfl⟩, ⟨.imu, rfl⟩, ⟨.ahrs, rfl⟩, ⟨.insGps, rfl⟩, ⟨.raw, rfl⟩]

/-- Settles O17: the known codes are those of the five types, and a header of zero residue with another code selects HP.BADTYPE, which is
the resynchronisation (R184); the count of the others is an evaluation over the 256 bytes. -/
theorem illegalTypesRejected : Obligations.IllegalTypesRejected := by
  refine ⟨known_iff_mem, by decide +kernel, fun m t l r c rest s ht hf hb hcrc => ?_⟩
  have hn : s.nextOp = .hpBadtype := by simp [State.nextOp, hf, hb, hcrc, ht, Config.hdrLen]
  exact ⟨hn, s.raiseResync .badType, State.whenSelected_of_eq _ hn, by simp [hb], by simp, by simp⟩

/-! ### A step runs the decoded operation -/

theorem nextOp_of_decodeDecision {s : State} {i : Instr} (h : decodeDecision s.decisionWord = .ok i) : i = s.nextOp :=
  (Except.ok.inj ((decodeDecision_decisionWord s).symm.trans h)).symm

/-- A state whose queue begins with an event that is taken runs without it. -/
theorem State.popInbox_eq {s : State} {e : EnvEvent} {rest : List EnvEvent} (h : s.inbox = e :: rest) :
    s.popInbox = { s with inbox := rest } := by
  rw [State.popInbox, h]
  rfl

/-- R82: the operation of an event's code and operand is the event. -/
theorem fetch_of_decodeEvent {s : State} {e : EnvEvent} {rest : List EnvEvent} {i : Instr} (hi : s.inbox = e :: rest)
    (h : decodeEvent (eventCode e) (eventOperand e) = .ok i) (hready : e = .reset ∨ s.quiescent = true) :
    s.fetch = (i, s.popInbox) := by
  cases e with
  | idle => cases h
  | push x =>
    obtain ⟨-, -, rfl⟩ | ⟨hc, -⟩ | ⟨hc, -⟩ := decodeEvent_eq_ok.mp h
    · simp [State.fetch, hi, hready.resolve_left nofun, eventOperand]
    · cases hc
    · cases hc
  | close =>
    cases h
    simp [State.fetch, hi, hready.resolve_left nofun]
  | reset =>
    cases h
    simp [State.fetch, hi]

theorem fetch_of_waiting {s : State} {e : EnvEvent} {rest : List EnvEvent} (hi : s.inbox = e :: rest) (hidle : e ≠ .idle)
    (hreset : e ≠ .reset) (hq : s.quiescent = false) : s.fetch = (s.nextOp, s) := by
  cases e with
  | idle => exact absurd rfl hidle
  | reset => exact absurd rfl hreset
  | push x => simp [State.fetch, hi, hq]
  | close => simp [State.fetch, hi, hq]

theorem State.nextOp_of_header {s : State} {p : PacketType} {l r c : Byte} {rest : List Byte} (hf : s.fs = .headerPending)
    (hb : s.buf = headerBytes p l r c ++ rest) :
    s.nextOp = if crc8 (headerBytes p l r c) = 0x00#8 then .hpAccept else .hpBadcrc := by
  by_cases hcrc : crc8 (headerBytes p l r c) = 0x00#8 <;> simp_all [State.nextOp, Config.hdrLen, headerBytes]

/-- R141, R143: with a known type's header at the front, the decoder's transition is that packet type's operation (log 7). -/
theorem exec_nextOp_of_header {s : State} {p : PacketType} {l r c : Byte} {rest : List Byte} (hf : s.fs = .headerPending)
    (hb : s.buf = headerBytes p l r c ++ rest) : exec s.nextOp s = exec (headerInstr p l r c) s := by
  have hn := State.nextOp_of_header hf hb
  rw [exec_headerInstr, State.judgeHeader_of_front hf hb]
  split at hn
  · next hcrc =>
    have hfields : s.buf.headerFields = some (p, l) := by
      rw [hb]
      exact Memory.headerFields_eq_some.mpr ⟨rfl, rfl⟩
    rw [hn]
    simp only [exec, execHpAccept, hfields, State.whenSelected_of_eq _ hn, if_pos hcrc]
  · next hcrc =>
    rw [hn]
    simp only [exec, execHpBadcrc, State.whenSelected_of_eq _ hn, if_neg hcrc]

/-- Settles O22: the schedule fetches the decoder's transition, which the decision word decodes to, or the event, which its code decodes
to; and a known type's header is judged as its packet type's operation (`exec_nextOp_of_header`). -/
theorem stepRunsDecodedOperation : Obligations.StepRunsDecodedOperation := by
  intro s i
  refine ⟨fun hi h => ?_, fun rest hi h => ?_, fun e rest hi h hready => ?_, fun e rest hi hidle hreset hq h => ?_,
    fun hi hf h => ?_⟩
  · rw [nextOp_of_decodeDecision h, step, State.fetch, hi]
  · rw [nextOp_of_decodeDecision h, ← State.popInbox_eq hi, step, State.fetch, hi]
  · rw [← State.popInbox_eq hi, step, fetch_of_decodeEvent hi h hready]
  · rw [nextOp_of_decodeDecision h, step, fetch_of_waiting hi hidle hreset hq]
  · obtain ⟨p, l, r, c, hheader, rfl⟩ := decodeHeader_eq_ok.mp h
    rw [← Memory.header_eq_take] at hheader
    obtain ⟨rest, hb⟩ := Memory.header_eq_headerBytes_iff.mp hheader
    rw [← exec_nextOp_of_header hf hb, step, State.fetch, hi]

/-! ### A frame as R85 builds it passes both checks (R95, R99) -/

theorem crc8_append_crc8 (m : List Byte) : crc8 (m ++ [crc8 m]) = 0x00#8 := by
  rw [crc8, crc8From_append]
  change crc8Byte (crc8 m) (crc8 m) = 0x00#8
  rw [crc8Byte_eq_table, BitVec.xor_self]
  rfl

theorem xor_highByte_eq_lowByte (v : Half) : v ^^^ ((highByte v).setWidth 16 <<< 8) = (lowByte v).setWidth 16 := by
  refine BitVec.eq_of_getLsbD_eq fun i hi => ?_
  by_cases h : i < 8
  · simp [highByte, lowByte, h, hi]
  · simp [highByte, lowByte, h, hi, show i - 8 < 8 by omega, show 8 + (i - 8) = i by omega]

/-- The first byte of the field clears the high half of the register, the second the low half. -/
theorem crc16From_self (v : Half) : crc16From v [highByte v, lowByte v] = 0x0000#16 := by
  have hhigh : crc16Byte v (highByte v) = (lowByte v).setWidth 16 <<< 8 := by
    rw [← crc16Byte_low, ← xor_highByte_eq_lowByte]
    simp [crc16Byte]
  change crc16Byte (crc16Byte v (highByte v)) (lowByte v) = 0x0000#16
  rw [hhigh, crc16Byte, BitVec.xor_self]
  rfl

theorem crc16_append_crc16 (m : List Byte) : crc16 (m ++ [highByte (crc16 m), lowByte (crc16 m)]) = 0x0000#16 := by
  rw [crc16, crc16From_append]
  exact crc16From_self (crc16 m)

/-! ### A drain, one transition at a time -/

theorem State.drain_of_selected {s t : State} {i : Instr} (hn : s.nextOp = i) (hi : isWait i = false)
    (he : exec i s = .next t) : s.drain = t.drain := by
  have hq : s.quiescent = false := by rw [State.quiescent, hn, hi]
  rw [(State.drain_unfold hq).1, State.decoderStep_of_exec hn he]

/-- R131: AH.SYNC at a marker. -/
theorem State.drain_of_marker {s : State} {rest : List Byte} (hf : s.fs = .awaitingHeader)
    (hb : s.buf = Config.sync0 :: Config.sync1 :: rest) :
    s.drain = ({ s with fs := .headerPending, buf := Config.sync1 :: rest } : State).drain := by
  have hn : s.nextOp = .ahSync := by
    simp [State.nextOp, hf, hb, Config.ahNeed, (Memory.markerAtFront_iff _).mpr ⟨rest, rfl⟩]
  rw [State.drain_of_selected hn rfl (State.whenSelected_of_eq _ hn)]
  exact congrArg State.drain (State.eq_of_fields rfl rfl (by simp [hb]) rfl rfl rfl rfl)

/-- R141: HP.ACCEPT at a header of zero residue. -/
theorem State.drain_of_goodHeader {s : State} {p : PacketType} {l r c : Byte} {rest : List Byte} (hf : s.fs = .headerPending)
    (hb : s.buf = headerBytes p l r c ++ rest) (hcrc : crc8 (headerBytes p l r c) = 0x00#8) :
    s.drain = ({ s with fs := .payloadPending p l } : State).drain := by
  have hn : s.nextOp = .hpAccept := (State.nextOp_of_header hf hb).trans (if_pos hcrc)
  refine State.drain_of_selected hn rfl ?_
  rw [← exec_headerInstr_accepted p hf hb hcrc, ← exec_nextOp_of_header hf hb, hn]

/-- R153: PP.EMIT at a whole frame that passes, behind which a byte is left. -/
theorem State.drain_of_goodFrame {s : State} {t : PacketType} {l g : Byte} {f rest : List Byte} (hf : s.fs = .payloadPending t l)
    (hb : s.buf = f ++ g :: rest) (hlen : f.length = frameLen l) (hok : Memory.payOk f l = true) :
    s.drain = ({ s with fs := .awaitingHeader, buf := g :: rest, out := s.out ++ [⟨t, f⟩] } : State).drain := by
  have hlen' : ¬ (f ++ g :: rest).length < needLen l := by
    simp only [List.length_append, List.length_cons, hlen, frameLen, needLen, Config.frameOverhead, Config.needOverhead]
    omega
  have hn : s.nextOp = .ppEmit := by
    simp only [State.nextOp, hf, hb, if_neg hlen', Memory.payOk_append _ hlen.ge, hok, if_true]
  have hframe : s.buf.frame l = f := by simp [Memory.frame, Memory.slice, hb, ← hlen]
  rw [State.drain_of_selected hn rfl (by simp only [exec, execPpEmit, hf]; exact State.whenSelected_of_eq _ hn)]
  exact congrArg State.drain (State.eq_of_fields rfl rfl (by simp [hb, ← hlen]) rfl (by simp [hframe]) rfl rfl)

/-! ### FRAME and WIRE of R85 -/

section
variable (t : PacketType) (r : Byte) (p : List Byte)

/-- FRAME as header region, CRC-16 field and payload. -/
theorem frameOf_eq : frameOf (typeCode t) r p =
    headerBytes t (BitVec.ofNat 8 p.length) r (crc8 (frameHead (typeCode t) r p)) ++
      [highByte (crc16 p), lowByte (crc16 p)] ++ p := rfl

theorem crc8_frameOf_header :
    crc8 (headerBytes t (BitVec.ofNat 8 p.length) r (crc8 (frameHead (typeCode t) r p))) = 0x00#8 :=
  crc8_append_crc8 (frameHead (typeCode t) r p)

variable {p} (hp : p.length ≤ 255)
include hp

theorem toNat_payloadLength : (BitVec.ofNat 8 p.length).toNat = p.length := by
  rw [BitVec.toNat_ofNat]
  omega

theorem frameOf_length : (frameOf (typeCode t) r p).length = frameLen (BitVec.ofNat 8 p.length) := by
  rw [frameLen, toNat_payloadLength hp]
  rfl

theorem payOk_frameOf : Memory.payOk (frameOf (typeCode t) r p) (BitVec.ofNat 8 p.length) = true := by
  have h := Memory.payOk_parts (headerBytes t (BitVec.ofNat 8 p.length) r (crc8 (frameHead (typeCode t) r p)))
    (highByte (crc16 p)) (lowByte (crc16 p)) p [] (BitVec.ofNat 8 p.length) rfl (toNat_payloadLength hp).symm
  rw [List.append_nil, ← frameOf_eq, crc16_append_crc16] at h
  exact h
end

theorem State.drain_of_length_lt_need {s : State} (h : s.buf.length < s.need) : s.drain = s :=
  (State.drain_of_quiescent ((State.quiescent_iff s).mpr h)).1

/-- R131, R141, R152: AH.SYNC and HP.ACCEPT take a wire frame into PayloadPending, where the guard byte is missing. -/
theorem State.feed_wireOf {s : State} (t : PacketType) (r : Byte) {p : List Byte} (hf : s.fs = .awaitingHeader) (hb : s.buf = [])
    (hp : p.length ≤ 255) : s.feed (wireOf (typeCode t) r p) =
      { s with fs := .payloadPending t (BitVec.ofNat 8 p.length), buf := frameOf (typeCode t) r p } := by
  have hwire : (s.append (wireOf (typeCode t) r p)).buf = wireOf (typeCode t) r p := by simp [hb]
  rw [State.feed, State.drain_of_marker (s := s.append _) hf hwire,
    State.drain_of_goodHeader rfl (frameOf_eq t r p) (crc8_frameOf_header t r p)]
  exact State.drain_of_length_lt_need ((frameOf_length t r hp).trans_lt (Nat.lt_succ_self _))

/-- R152, R153: with the guard byte PP.EMIT is taken, and the byte that is left is not enough for another transition. -/
theorem State.feed_guardByte {s : State} {t : PacketType} {l : Byte} (g : Byte) (hf : s.fs = .payloadPending t l)
    (hlen : s.buf.length = frameLen l) (hok : s.buf.payOk l = true) :
    s.feed [g] = { s with fs := .awaitingHeader, buf := [g], out := s.out ++ [⟨t, s.buf⟩] } := by
  rw [State.feed, State.drain_of_goodFrame (s := s.append [g]) hf rfl hlen hok]
  exact State.drain_of_length_lt_need Nat.one_lt_two

/-- Settles O43: `State.feed_wireOf`, then `State.feed_guardByte`. -/
theorem wireFrameEmittedAfterGuardByte : Obligations.WireFrameEmittedAfterGuardByte := by
  intro s t r p g hf hb hp
  have hwithheld := State.feed_wireOf t r hf hb hp
  refine ⟨hwithheld, ?_⟩
  rw [hwithheld, State.feed_guardByte g rfl (frameOf_length t r hp) (payOk_frameOf t r hp), ← hf]

end Sys2Proof.Machine

namespace Sys2Proof.Machine

/-! ### The two bytes of a register (R98 law 5, `{a, b}`) -/

theorem highByte_shiftLeft (x : Byte) : highByte (x.setWidth 16 <<< 8) = x := by
  refine BitVec.eq_of_getLsbD_eq fun i hi => ?_
  simp [highByte, hi, show 8 + i < 16 by omega]

theorem lowByte_shiftLeft (v : Half) : (lowByte v).setWidth 16 <<< 8 = v <<< 8 := by
  refine BitVec.eq_of_getLsbD_eq fun i hi => ?_
  simp [lowByte, show i - 8 < 8 by omega, show i - 8 < 16 by omega]

theorem getLsbD_append_byte (a b : Byte) (i : Nat) :
    BitVec.getLsbD (w := 16) (a ++ b) i = if i < 8 then b.getLsbD i else a.getLsbD (i - 8) := by
  simpa [Bool.cond_decide] using BitVec.getLsbD_append (x := a) (y := b) (i := i)

@[simp] theorem highByte_append (a b : Byte) : highByte (a ++ b) = a := by
  refine BitVec.eq_of_getLsbD_eq fun i hi => ?_
  simp [highByte, getLsbD_append_byte, hi]

@[simp] theorem lowByte_append (a b : Byte) : lowByte (a ++ b) = b := BitVec.setWidth_append_eq_right

theorem highByte_append_lowByte (v : Half) : highByte v ++ lowByte v = v := by
  refine BitVec.eq_of_getLsbD_eq (w := 16) fun i hi => ?_
  rw [getLsbD_append_byte]
  split
  case isTrue h => simp [lowByte, h]
  case isFalse h => simp [highByte, show i - 8 < 8 by omega, show 8 + (i - 8) = i by omega]

theorem eq_append_iff (v : Half) (a b : Byte) : v = a ++ b ↔ a = highByte v ∧ b = lowByte v := by
  constructor
  · rintro rfl
    simp
  · rintro ⟨rfl, rfl⟩
    exact (highByte_append_lowByte v).symm

/-! ### The laws of a checksum loop (R94, R98, R100), which hold of both checksums for the same three reasons -/

/-- What R91's and R96's treatment of one byte have in common: it is linear over exclusive-or in register and byte together, and neither
a register alone nor a byte alone is lost. -/
structure IsChecksumStep {w : Nat} (f : BitVec w → Byte → BitVec w) : Prop where
  xor : ∀ a b x y, f (a ^^^ b) (x ^^^ y) = f a x ^^^ f b y
  reg_eq_zero : ∀ {a}, f a 0x00#8 = 0#w → a = 0#w
  byte_eq_zero : ∀ {x}, f 0#w x = 0#w → x = 0x00#8

namespace IsChecksumStep

variable {w : Nat} {f : BitVec w → Byte → BitVec w} (hf : IsChecksumStep f)
include hf

theorem zero_zero : f 0#w 0x00#8 = 0#w := by
  simpa using hf.xor 0#w 0#w 0x00#8 0x00#8

theorem reg_injective (x : Byte) : Function.Injective (f · x) := by
  intro a b (h : f a x = f b x)
  have hzero : f (a ^^^ b) 0x00#8 = 0#w := by
    simpa [h] using hf.xor a b x x
  exact BitVec.xor_eq_zero_iff.mp (hf.reg_eq_zero hzero)

theorem byte_injective (a : BitVec w) : Function.Injective (f a) := by
  intro x y h
  have hzero : f 0#w (x ^^^ y) = 0#w := by
    simpa [h] using hf.xor a a x y
  exact BitVec.xor_eq_zero_iff.mp (hf.byte_eq_zero hzero)

theorem foldl_zipWith_xor : ∀ (x y : List Byte) (a b : BitVec w), x.length = y.length →
    (List.zipWith (· ^^^ ·) x y).foldl f (a ^^^ b) = x.foldl f a ^^^ y.foldl f b
  | [], [], _, _, _ => rfl
  | u :: x, v :: y, a, b, h => by
    simp only [List.zipWith_cons_cons, List.foldl_cons, hf.xor]
    exact foldl_zipWith_xor x y _ _ (Nat.succ.inj h)

theorem foldl_zero_cons (x : List Byte) : (0x00#8 :: x).foldl f 0#w = x.foldl f 0#w := by
  rw [List.foldl_cons, hf.zero_zero]

theorem foldl_replicate_zero (n : Nat) : (List.replicate n 0x00#8).foldl f 0#w = 0#w := by
  induction n with
  | zero => rfl
  | succ n ih => rw [List.replicate_succ, hf.foldl_zero_cons, ih]

theorem foldl_injective (x : List Byte) : Function.Injective (x.foldl f ·) := by
  induction x with
  | nil => exact fun _ _ h => h
  | cons u x ih => exact ih.comp (hf.reg_injective u)

/-- Changing one byte always shows: up to it the registers agree, at it they part, and behind it they never meet again. -/
theorem foldl_set_ne {m : List Byte} {i : Nat} (hi : i < m.length) {v : Byte} (hv : v ≠ m[i]) (a : BitVec w) :
    (m.set i v).foldl f a ≠ m.foldl f a := by
  have hsplit : ∀ u, (m.set i u).foldl f a = (m.drop (i + 1)).foldl f (f ((m.take i).foldl f a) u) := fun u => by
    rw [List.set_eq_take_append_cons_drop, if_pos hi, List.foldl_append, List.foldl_cons]
  intro h
  have hsame : (m.set i v).foldl f a = (m.set i m[i]).foldl f a := by rwa [List.set_getElem_self]
  rw [hsplit, hsplit] at hsame
  exact hv (hf.byte_injective _ (hf.foldl_injective _ hsame))

/-- R100, for either checksum. -/
theorem foldl_flipBit_ne_zero {a : BitVec w} {m : List Byte} {i k : Nat} (hi : i < m.length) (hk : k < 8) (h : m.foldl f a = 0#w) :
    (m.set i (m[i] ^^^ (1#8 <<< k))).foldl f a ≠ 0#w := by
  have hflip : m[i] ^^^ (1#8 <<< k) ≠ m[i] := by
    intro he
    have hbit := congrArg (fun v => v.getLsbD k) he
    simp [hk] at hbit
  rw [← h]
  exact hf.foldl_set_ne hi hflip a

end IsChecksumStep

theorem crc8Byte_isChecksumStep : IsChecksumStep crc8Byte where
  xor := crc8Byte_xor
  reg_eq_zero := crc8Byte_eq_zero _
  byte_eq_zero {x} h := crc8Byte_eq_zero x (by simpa [crc8Byte] using h)

/-- A byte meets the zero register as its high byte, and there nothing is lost. -/
theorem crc16Byte_isChecksumStep : IsChecksumStep crc16Byte where
  xor := crc16Byte_xor
  reg_eq_zero := crc16Byte_eq_zero
  byte_eq_zero {x} h := by
    have hreg : x.setWidth 16 <<< 8 = 0x0000#16 := crc16Byte_eq_zero (by simpa [crc16Byte] using h)
    have hbyte : highByte (x.setWidth 16 <<< 8) = 0x00#8 := by rw [hreg]; rfl
    rwa [highByte_shiftLeft] at hbyte

/-- Settles O53: each checksum is `IsChecksumStep.foldl_flipBit_ne_zero` from the zero register. -/
theorem singleBitErrorsAreDetected : Obligations.SingleBitErrorsAreDetected :=
  ⟨fun _ _ _ => crc8Byte_isChecksumStep.foldl_flipBit_ne_zero, fun _ _ _ => crc16Byte_isChecksumStep.foldl_flipBit_ne_zero⟩

/-! ### CRC-8: the register and the last byte -/

theorem crc8_append_singleton (m : List Byte) (c : Byte) : crc8 (m ++ [c]) = crc8Byte (crc8 m) c := by
  rw [crc8, crc8From_append]
  rfl

/-- One byte passes behind `m`, the checksum (`crc8_append_crc8`), and no other, as the last step is injective in its byte. -/
theorem crc8_append_eq_zero_iff (m : List Byte) (c : Byte) : crc8 (m ++ [c]) = 0x00#8 ↔ c = crc8 m := by
  rw [← crc8_append_crc8 m, crc8_append_singleton, crc8_append_singleton]
  exact (crc8Byte_isChecksumStep.byte_injective (crc8 m)).eq_iff

theorem crc8_eq_zero_iff_getElem {b : List Byte} {n : Nat} (h : b.length = n + 1) :
    crc8 b = 0x00#8 ↔ b[n]? = some (crc8 (b.take n)) := by
  have hn : n < b.length := by omega
  have hb : b = b.take n ++ [b[n]] := by
    rw [List.take_concat_get' b n hn, List.take_of_length_le h.le]
  rw [List.getElem?_eq_getElem hn, Option.some_inj, ← crc8_append_eq_zero_iff, ← hb]

theorem crc8Table_injective : Function.Injective crc8Table :=
  crc8Byte_isChecksumStep.byte_injective 0x00#8

/-- Settles O47: the linear and the zero-byte laws are those of any checksum loop; the table is one step from the zero register, so it is
injective, and on the 256 bytes bijective. -/
theorem crcEightLaws : Obligations.CrcEightLaws := by
  refine ⟨rfl, crc8From_append 0x00#8, fun x b => ?_, fun x y => ?_, ?_, ?_, ?_⟩
  · rw [crc8_append_singleton, crc8Byte_eq_table]
  · exact crc8Byte_isChecksumStep.foldl_zipWith_xor x y 0x00#8 0x00#8
  · exact crc8Byte_isChecksumStep.foldl_zero_cons
  · exact crc8Byte_isChecksumStep.foldl_replicate_zero
  · exact Finite.injective_iff_bijective.mp crc8Table_injective

/-- Settles O49: each clause is `crc8_append_eq_zero_iff`, read at a last byte that is given, sought, or the fifth of five. -/
theorem crcEightResidue : Obligations.CrcEightResidue := by
  refine ⟨crc8_append_eq_zero_iff, fun m _ => ?_, fun b hb => crc8_eq_zero_iff_getElem hb⟩
  exact ⟨crc8 m, crc8_append_crc8 m, fun c => (crc8_append_eq_zero_iff m c).mp⟩

/-! ### CRC-16: the register and the last two bytes -/

/-- Exactly the register's own two bytes, the high one first, clear it: they do (`crc16From_self`), and from no other register, as the
loop is injective in the register. -/
theorem crc16From_pair_eq_zero_iff (s : Half) (a b : Byte) : crc16From s [a, b] = 0x0000#16 ↔ s = a ++ b := by
  have hself : crc16From (a ++ b) [a, b] = 0x0000#16 := by
    simpa using crc16From_self (a ++ b)
  rw [← hself]
  exact (crc16Byte_isChecksumStep.foldl_injective [a, b]).eq_iff

/-- Settles O48: the laws of any checksum loop, and `crc16From_pair_eq_zero_iff`. -/
theorem crcSixteenLaws : Obligations.CrcSixteenLaws :=
  ⟨rfl, crc16From_append 0x0000#16, fun x y => crc16Byte_isChecksumStep.foldl_zipWith_xor x y 0x0000#16 0x0000#16,
    crc16Byte_isChecksumStep.foldl_zero_cons, crc16Byte_isChecksumStep.foldl_replicate_zero, crc16From_pair_eq_zero_iff⟩

theorem crc16_append_eq_zero_iff (p : List Byte) (a b : Byte) :
    crc16 (p ++ [a, b]) = 0x0000#16 ↔ a = highByte (crc16 p) ∧ b = lowByte (crc16 p) := by
  rw [crc16, crc16From_append, crc16From_pair_eq_zero_iff, eq_append_iff]
  rfl

/-- Settles O50: the law is `crc16_append_eq_zero_iff`, the counter-example to the low byte first an evaluation. -/
theorem crcSixteenResidue : Obligations.CrcSixteenResidue :=
  ⟨crc16_append_eq_zero_iff, by decide +kernel, by decide +kernel⟩

/-! ### The equal forms of R92, R93 and R97 -/

theorem crc8Tabled_eq (x : List Byte) : crc8Tabled x = crc8 x := by
  have hstep : (fun crc b => crc8Table (crc ^^^ b)) = crc8Byte := funext₂ fun a b => (crc8Byte_eq_table a b).symm
  rw [crc8Tabled, hstep]
  rfl

/-- A byte of R97: the register's high byte goes through the table together with the byte, its low byte only moves up. -/
theorem crc16Byte_eq_table (a : Half) (x : Byte) :
    crc16Byte a x = (a <<< 8) ^^^ crc16Table (highByte a ^^^ x) := by
  have hlow : crc16Byte ((lowByte a).setWidth 16) 0x00#8 = a <<< 8 := by
    rw [crc16Byte_low, lowByte_shiftLeft]
  calc crc16Byte a x
      = crc16Byte ((lowByte a).setWidth 16 ^^^ (highByte a).setWidth 16 <<< 8) (0x00#8 ^^^ x) := by
        rw [← xor_highByte_eq_lowByte, BitVec.xor_assoc, BitVec.xor_self, BitVec.xor_zero, BitVec.zero_xor]
    _ = a <<< 8 ^^^ crc16Byte ((highByte a).setWidth 16 <<< 8) x := by rw [crc16Byte_xor, hlow]
    _ = a <<< 8 ^^^ crc16Table (highByte a ^^^ x) := by
        simp [crc16Table, crc16, crc16From, crc16Byte, BitVec.setWidth_xor, BitVec.shiftLeft_xor_distrib]

theorem crc16Tabled_eq (x : List Byte) : crc16Tabled x = crc16 x := by
  have hstep : (fun (crc : Half) b => (crc <<< 8) ^^^ crc16Table ((crc >>> 8).setWidth 8 ^^^ b)) = crc16Byte :=
    funext₂ fun a b => (crc16Byte_eq_table a b).symm
  rw [crc16Tabled, hstep]
  rfl

theorem rev8_xor (a b : Byte) : rev8 (a ^^^ b) = rev8 a ^^^ rev8 b := by
  refine BitVec.eq_of_getLsbD_eq fun i hi => ?_
  simp [rev8, BitVec.getLsbD_reverse, BitVec.getMsbD_xor]

/-- A right shift with the reversed polynomial is a left shift of the reversed register. -/
theorem crc8LeftShift_rev8 : ∀ a : Byte, crc8LeftShift (rev8 a) = rev8 (crc8Shift a) := by decide +kernel

theorem crc8LeftByte_rev8 (a x : Byte) : crc8LeftByte (rev8 a) x = rev8 (crc8Byte a x) := by
  simp only [crc8LeftByte, crc8Byte, ← rev8_xor, crc8LeftShift_rev8]

/-- R92's register is R91's, bit-reversed, after every byte. -/
theorem crc8Reflected_eq (x : List Byte) : crc8Reflected x = crc8 x := by
  have hreg : x.foldl crc8LeftByte (rev8 0x00#8) = rev8 (crc8 x) := List.foldl_hom rev8 crc8LeftByte_rev8
  rw [crc8Reflected, BitVec.xor_zero]
  exact (congrArg rev8 hreg).trans BitVec.reverse_reverse_eq

/-- Settles O46: each form's loop runs step by step with R91's or R96's (`crc8LeftByte_rev8`, `crc8Byte_eq_table`, `crc16Byte_eq_table`). -/
theorem otherCrcFormsAgree : Obligations.OtherCrcFormsAgree :=
  fun x => ⟨crc8Reflected_eq x, crc8Tabled_eq x, crc16Tabled_eq x⟩

end Sys2Proof.Machine

namespace Sys2Proof.Machine

/-! ### An operation is answered or refused, and a transition runs only where it is selected (R110, R116, R200) -/

/-- `Fault` has no constructor (log 13), so an operation without a next state is refused. -/
theorem refused_of_forall_ne_next {o : Outcome} (h : ∀ t, o ≠ .next t) : ∃ r, o = .refused r := by
  cases o with
  | next t => exact absurd rfl (h t)
  | fault f => exact nomatch f
  | refused r => exact ⟨r, rfl⟩

/-- Settles O2: `execPush_eq_next` is the condition of admission, with room in numbers (`State.fits_iff`). -/
theorem pushAppendsChunk : Obligations.PushAppendsChunk := by
  intro s x
  simp only [← State.fits_iff]
  refine ⟨fun ⟨hx, hopen, hq, hfits⟩ => execPush_eq_next.mpr ⟨hx, hopen, hq, hfits, rfl⟩, fun hnot => ?_⟩
  refine refused_of_forall_ne_next fun t h => hnot ?_
  obtain ⟨hx, hopen, hq, hfits, -⟩ := execPush_eq_next.mp h
  exact ⟨hx, hopen, hq, hfits⟩

/-- Settles O3: `execClose_eq_next` is the condition of admission. -/
theorem closeSetsClosed : Obligations.CloseSetsClosed := by
  intro s
  refine ⟨fun ⟨hopen, hq⟩ => execClose_eq_next.mpr ⟨hopen, hq, rfl⟩, fun hnot => ?_⟩
  refine refused_of_forall_ne_next fun t h => hnot ?_
  obtain ⟨hopen, hq, -⟩ := execClose_eq_next.mp h
  exact ⟨hopen, hq⟩

/-- The ten transitions of the decoder (R116). -/
def decoderTransitions : List Instr :=
  [.ahWait, .ahSync, .ahSkip, .hpWait, .hpAccept, .hpBadtype, .hpBadcrc, .ppWait, .ppEmit, .ppBadcrc]

/-- A transition is refused, or is `whenSelected` with some effect. -/
theorem exec_transition {i : Instr} (h : i ∈ decoderTransitions) (s : State) :
    exec i s = .refused .notEnabled ∨ ∃ effect, exec i s = s.whenSelected i effect := by
  simp only [decoderTransitions, List.mem_cons, List.not_mem_nil, or_false] at h
  obtain rfl | rfl | rfl | rfl | rfl | rfl | rfl | rfl | rfl | rfl := h
  case inr.inr.inr.inr.inl =>
    cases hfields : s.buf.headerFields with
    | none => exact .inl (by simp only [exec, execHpAccept, hfields])
    | some f => exact .inr ⟨s.recordHeader f.1 f.2, by simp only [exec, execHpAccept, hfields]⟩
  case inr.inr.inr.inr.inr.inr.inr.inr.inl =>
    cases hf : s.fs with
    | awaitingHeader => exact .inl (by simp only [exec, execPpEmit, hf])
    | headerPending => exact .inl (by simp only [exec, execPpEmit, hf])
    | payloadPending t l =>
      exact .inr ⟨((s.dropFront (frameLen l)).emit t (s.buf.frame l)).awaitHeader, by simp only [exec, execPpEmit, hf]⟩
  all_goals exact .inr ⟨_, rfl⟩

theorem exec_transition_of_ne_nextOp {s : State} {i : Instr} (h : i ∈ decoderTransitions) (hne : i ≠ s.nextOp) :
    exec i s = .refused .notEnabled := by
  obtain he | ⟨effect, he⟩ := exec_transition h s
  · exact he
  · rw [he, State.whenSelected_of_ne effect hne.symm]

/-- Settles O20: the selected transition runs (`decoder_cases`), and any other is refused (`exec_transition_of_ne_nextOp`). -/
theorem exactlyOneTransitionEnabled : Obligations.ExactlyOneTransitionEnabled := by
  intro s i hi
  refine ⟨⟨fun ⟨t, ht⟩ => ?_, fun h => ⟨s.decoderStep, h ▸ (decoder_cases s).1⟩⟩, exec_transition_of_ne_nextOp hi⟩
  by_contra hne
  rw [exec_transition_of_ne_nextOp hi hne] at ht
  cases ht

/-! ### Quiescence (R118) -/

theorem State.quiescent_iff_enough (s : State) : s.quiescent = true ↔ s.enough = false := by
  rw [State.quiescent_iff, State.enough, decide_eq_false_iff_not, Nat.not_le]

/-- Settles O21: quiescence is a byte count below `need` (`State.quiescent_iff`), and the lower bounds are those of the invariant. -/
theorem quiescentExactly : Obligations.QuiescentExactly := by
  refine ⟨fun s => ⟨?_, fun _ hf => ?_, fun hinv hf => ?_, fun t l hinv hf => ?_, fun hq hi => ?_⟩, by decide⟩
  · rw [State.decisionWord_enough, State.quiescent_iff_enough]
  · simp only [State.quiescent_iff, State.need, hf, Config.ahNeed]
    omega
  · obtain ⟨hfs, -⟩ := (State.inv_iff s).mp hinv
    have hpos : 0 < s.buf.length := (List.getElem?_eq_some_iff.mp ((frameStateOk_headerPending hf).mp hfs)).1
    simp only [State.quiescent_iff, State.need, hf, Config.hdrLen]
    omega
  · obtain ⟨hfs, -⟩ := (State.inv_iff s).mp hinv
    obtain ⟨hlen, -⟩ := (frameStateOk_payloadPending hf).mp hfs
    simp only [State.quiescent_iff, State.need, hf, needLen, Config.needOverhead]
    omega
  · rw [step_of_inbox, hi]
    exact congrArg _ (State.decoderStep_of_quiescent hq)

/-- Settles O23: by what the environment offers (`step_of_inbox`), only an event taken at quiescence is not a decoder transition or a
RESET. -/
theorem decoderStepIsNeverRefused : Obligations.DecoderStepIsNeverRefused := by
  refine fun s => ⟨⟨s.decoderStep, (decoder_cases s).1⟩, fun r h => ?_⟩
  rw [step_of_inbox] at h
  rcases hi : s.inbox with _ | ⟨_ | x | _ | _, rest⟩ <;> rw [hi] at h
  · cases h
  · cases h
  · cases hq : s.quiescent <;> rw [hq] at h
    · cases h
    · exact ⟨_, _, rfl, nofun, nofun, rfl⟩
  · cases hq : s.quiescent <;> rw [hq] at h
    · cases h
    · exact ⟨_, _, rfl, nofun, nofun, rfl⟩
  · cases h

/-! ### A drain stops (R117) -/

theorem State.drainOpsWithin_length_le : ∀ (n : Nat) (s : State), (State.drainOpsWithin n s).length ≤ n
  | 0, _ => Nat.le_refl 0
  | n + 1, s => by
    unfold State.drainOpsWithin
    split
    · exact Nat.zero_le _
    · exact Nat.succ_le_succ (State.drainOpsWithin_length_le n s.decoderStep)

theorem State.drain_quiescent (s : State) : s.drain.quiescent = true := by
  induction s using State.drain_induction with
  | stop s hq => rwa [(State.drain_of_quiescent hq).1]
  | turn s hq ih => rwa [(State.drain_unfold hq).1]

theorem State.isWait_of_mem_drainOps (s : State) : ∀ i ∈ s.drainOps, isWait i = false := by
  induction s using State.drain_induction with
  | stop s hq => simp [(State.drain_of_quiescent hq).2]
  | turn s hq ih =>
    rw [(State.drain_unfold hq).2]
    exact List.forall_mem_cons.mpr ⟨hq, ih⟩

/-- A drain is as many transitions as it lists. -/
theorem State.drain_eq_decoderSteps (s : State) : s.drain = State.decoderSteps s.drainOps.length s := by
  induction s using State.drain_induction with
  | stop s hq =>
    obtain ⟨hs, hops⟩ := State.drain_of_quiescent hq
    rw [hs, hops]
    rfl
  | turn s hq ih =>
    obtain ⟨hs, hops⟩ := State.drain_unfold hq
    rw [hs, hops]
    exact ih

/-- R117: HP.ACCEPT alone of the non-WAIT transitions removes no byte. -/
theorem State.decoderStep_progress {s : State} (hq : s.quiescent = false) :
    (s.nextOp ≠ .hpAccept ∧ s.decoderStep.buf.length < s.buf.length) ∨
    (s.nextOp = .hpAccept ∧ s.decoderStep.buf = s.buf ∧ ∃ p l, s.decoderStep.fs = .payloadPending p l) := by
  have drops : ∀ {i n}, s.nextOp = i → i ≠ .hpAccept → 0 < n → 0 < s.buf.length → s.decoderStep.buf = s.buf.drop n →
      s.nextOp ≠ .hpAccept ∧ s.decoderStep.buf.length < s.buf.length := by
    rintro i n rfl hi hn hlen hb
    rw [hb, List.length_drop]
    exact ⟨hi, by omega⟩
  obtain ⟨hq', -⟩ | ⟨hn, -, ⟨rest, hb⟩, he⟩ | ⟨hn, -, hl, -, he⟩ | ⟨hn, -, -, -, t, l, -, he⟩ | ⟨hn, -, hl, -, -, he⟩ |
    ⟨hn, -, hl, -, he⟩ | ⟨t, l, -, hl, ⟨hn, -, he⟩ | ⟨hn, -, he⟩⟩ := (decoder_cases s).2
  · simp [hq] at hq'
  · exact .inl (drops hn nofun Nat.one_pos (by simp [hb]) (by simp [he]))
  · exact .inl (drops hn nofun Nat.one_pos (by omega) (by simp [he]))
  · exact .inr ⟨hn, by simp [he], t, l, by simp [he]⟩
  · exact .inl (drops hn nofun Nat.one_pos (by omega) (by simp [he]))
  · exact .inl (drops hn nofun Nat.one_pos (by omega) (by simp [he]))
  · exact .inl (drops hn nofun (n := frameLen l) (by simp [frameLen]) (by omega) (by simp [he]))
  · exact .inl (drops hn nofun Nat.one_pos (by omega) (by simp [he]))

/-- Settles O35: the bound is that of the loop, which ends at quiescence, and the progress is `State.decoderStep_progress`. -/
theorem drainStops : Obligations.DrainStops := by
  intro s
  have hq : s.drain.quiescent = true := s.drain_quiescent
  refine ⟨⟨State.drainOpsWithin_length_le _ s, s.isWait_of_mem_drainOps, s.drain_eq_decoderSteps, hq, ?_⟩, fun t hw he => ?_⟩
  · rw [(decoder_cases s.drain).1, State.decoderStep_of_quiescent hq]
  · obtain rfl : s.decoderStep = t := State.decoderStep_of_exec rfl he
    obtain ⟨hn, hlen⟩ | ⟨hn, hb, hf⟩ := State.decoderStep_progress hw
    · exact ⟨fun _ => hlen, fun h => absurd h hn⟩
    · exact ⟨fun h => absurd hn h, fun _ => ⟨hb, hf⟩⟩

/-! ### A non-WAIT transition reads and writes nothing behind the bytes it needs (R120) -/

theorem Memory.markerAtFront_append {b : Memory} (y : List Byte) (h : 2 ≤ b.length) :
    Memory.markerAtFront (b ++ y) = b.markerAtFront := by
  have hbyte : ∀ i < 2, Memory.byteAt (b ++ y) i = b.byteAt i := fun i hi => Memory.byteAt_append b y (by omega)
  simp only [Memory.markerAtFront, hbyte 0 (by omega), hbyte 1 (by omega)]

theorem Memory.declaredType_append {b : Memory} (y : List Byte) (h : 5 ≤ b.length) :
    Memory.declaredType (b ++ y) = b.declaredType :=
  Memory.byteAt_append b y (by simp only [Config.typeOff]; omega)

theorem Memory.typeKnown_append {b : Memory} (y : List Byte) (h : 5 ≤ b.length) : Memory.typeKnown (b ++ y) = b.typeKnown := by
  rw [Memory.typeKnown, Memory.typeKnown, Memory.declaredType_append y h]

theorem Memory.headerFields_append {b : Memory} (y : List Byte) (h : 5 ≤ b.length) :
    Memory.headerFields (b ++ y) = b.headerFields := by
  have hlen : Memory.payloadLen (b ++ y) = b.payloadLen := Memory.byteAt_append b y (by simp only [Config.lenOff]; omega)
  simp only [Memory.headerFields, Memory.declaredType_append y h, hlen]

theorem Memory.frame_append {b : Memory} (y : List Byte) {l : Byte} (h : frameLen l ≤ b.length) :
    Memory.frame (b ++ y) l = b.frame l :=
  Memory.slice_append b y h

/-- The state with bytes behind those of its buffer and with another queue: what the environment changes of a state in which it is not
awaited. -/
def State.extend (s : State) (y : List Byte) (q : List EnvEvent) : State := { s with buf := s.buf ++ y, inbox := q }

section
variable (s : State) (y : List Byte) (q : List EnvEvent)

theorem State.append_eq_extend : s.append y = s.extend y s.inbox := rfl

@[simp] theorem State.extend_fs : (s.extend y q).fs = s.fs := rfl
@[simp] theorem State.extend_buf : (s.extend y q).buf = s.buf ++ y := rfl
@[simp] theorem State.extend_cfg : (s.extend y q).cfg = s.cfg := rfl
@[simp] theorem State.extend_closed : (s.extend y q).closed = s.closed := rfl
@[simp] theorem State.extend_out : (s.extend y q).out = s.out := rfl
@[simp] theorem State.extend_dg : (s.extend y q).dg = s.dg := rfl
@[simp] theorem State.extend_inbox : (s.extend y q).inbox = q := rfl

variable {s}

theorem State.extend_dropFront {n : Nat} (h : n ≤ s.buf.length) : (s.extend y q).dropFront n = (s.dropFront n).extend y q :=
  State.eq_of_fields rfl rfl (List.drop_append_of_le_length h) rfl rfl rfl rfl

theorem State.extend_raiseResync (c : DiagCode) (h : 1 ≤ s.buf.length) :
    (s.extend y q).raiseResync c = (s.raiseResync c).extend y q := by
  apply State.eq_of_fields <;> simp [State.extend, List.drop_append_of_le_length h]

/-- R120: the selection. -/
theorem State.extend_nextOp (hq : s.quiescent = false) : (s.extend y q).nextOp = s.nextOp := by
  have hneed : s.need ≤ s.buf.length := (State.not_quiescent_iff s).mp hq
  have hlen : s.buf.length ≤ (s.buf ++ y).length := by simp
  cases hf : s.fs with
  | awaitingHeader =>
    simp only [State.need, hf] at hneed
    simp only [State.nextOp, State.extend_fs, State.extend_buf, hf, Memory.markerAtFront_append y hneed,
      if_neg hneed.not_gt, if_neg (hneed.trans hlen).not_gt]
  | headerPending =>
    simp only [State.need, hf] at hneed
    simp only [State.nextOp, State.extend_fs, State.extend_buf, hf, Memory.hdrOk_append y hneed, Memory.typeKnown_append y hneed,
      if_neg hneed.not_gt, if_neg (hneed.trans hlen).not_gt]
  | payloadPending t l =>
    simp only [State.need, hf] at hneed
    have hframe : frameLen l ≤ s.buf.length := (Nat.le_succ _).trans hneed
    simp only [State.nextOp, State.extend_fs, State.extend_buf, hf, Memory.payOk_append y hframe,
      if_neg hneed.not_gt, if_neg (hneed.trans hlen).not_gt]

theorem State.extend_quiescent (hq : s.quiescent = false) : (s.extend y q).quiescent = false := by
  rw [State.quiescent, State.extend_nextOp y q hq]
  exact hq

/-- R120: the effect. -/
theorem State.extend_decoderStep (hq : s.quiescent = false) : (s.extend y q).decoderStep = s.decoderStep.extend y q := by
  have effect : ∀ {i t}, s.nextOp = i → s.decoderStep = t →
      exec i (s.extend y q) = (s.extend y q).whenSelected i (t.extend y q) →
      (s.extend y q).decoderStep = s.decoderStep.extend y q := by
    rintro i t hn rfl he
    have hn' : (s.extend y q).nextOp = i := (State.extend_nextOp y q hq).trans hn
    exact State.decoderStep_of_exec hn' (he.trans (State.whenSelected_of_eq _ hn'))
  have resync : ∀ {i c}, s.nextOp = i → s.decoderStep = s.raiseResync c → 1 ≤ s.buf.length →
      exec i (s.extend y q) = (s.extend y q).whenSelected i ((s.extend y q).raiseResync c) →
      (s.extend y q).decoderStep = s.decoderStep.extend y q := by
    intro i c hn hd hlen he
    exact effect hn hd (by rw [he, State.extend_raiseResync y q c hlen])
  obtain ⟨hq', -⟩ | ⟨hn, -, ⟨rest, hb⟩, he⟩ | ⟨hn, -, hl, -, he⟩ | ⟨hn, -, hl, -, t, l, hfields, he⟩ | ⟨hn, -, hl, -, -, he⟩ |
    ⟨hn, -, hl, -, he⟩ | ⟨t, l, hf, hl, ⟨hn, -, he⟩ | ⟨hn, -, he⟩⟩ := (decoder_cases s).2
  · simp [hq] at hq'
  · have hdrop := State.extend_dropFront (s := s) y q (n := 1) (by simp [hb])
    exact effect hn he (by simp only [exec, execAhSync, hdrop]; rfl)
  · exact resync hn he (by omega) rfl
  · have hfields' : (s.extend y q).buf.headerFields = some (t, l) := (Memory.headerFields_append y hl).trans hfields
    exact effect hn he (by simp only [exec, execHpAccept, hfields']; rfl)
  · exact resync hn he (by omega) rfl
  · exact resync hn he (by omega) rfl
  · have hlen : frameLen l ≤ s.buf.length := by simp only [frameLen, Config.frameOverhead]; omega
    have hframe : (s.extend y q).buf.frame l = s.buf.frame l := Memory.frame_append y hlen
    exact effect hn he
      (by simp only [exec, execPpEmit, State.extend_fs, hf, State.extend_dropFront y q hlen, hframe]; rfl)
  · exact resync hn he (by omega) rfl

end

/-- Settles O36: an append is an extension, whose selection is `State.extend_nextOp` and whose effect is `State.extend_decoderStep`. -/
theorem transitionsIgnoreLaterBytes : Obligations.TransitionsIgnoreLaterBytes := by
  intro s y hq
  have hn : (s.append y).nextOp = s.nextOp := State.extend_nextOp y s.inbox hq
  refine ⟨hn, s.decoderStep, (decoder_cases s).1, ?_⟩
  have heffect : (s.append y).decoderStep = s.decoderStep.append y := by
    rw [State.append_eq_extend, State.extend_decoderStep y s.inbox hq, State.append_eq_extend, s.decoderStep_frame.2.2.1]
  rw [← hn, ← heffect]
  exact (decoder_cases _).1

end Sys2Proof.Machine

namespace Sys2Proof.Machine

/-! ### What comes behind the buffer may come before a drain or after it (R121) -/

/-- What a drain leaves alone. -/
theorem State.drain_frame (s : State) : s.drain.cfg = s.cfg ∧ s.drain.closed = s.closed ∧ s.drain.inbox = s.inbox := by
  induction s using State.drain_induction with
  | stop s hq => simp [(State.drain_of_quiescent hq).1]
  | turn s hq ih =>
    obtain ⟨hcfg, hclosed, hinbox, -⟩ := s.decoderStep_frame
    rwa [(State.drain_unfold hq).1, ← hcfg, ← hclosed, ← hinbox]

theorem State.drain_extend (s : State) (y : List Byte) (q : List EnvEvent) :
    (s.extend y q).drain = (s.drain.extend y q).drain ∧
    (s.extend y q).drainOps = s.drainOps ++ (s.drain.extend y q).drainOps := by
  induction s using State.drain_induction with
  | stop s hq => simp [State.drain_of_quiescent hq]
  | turn s hq ih =>
    obtain ⟨hs, hops⟩ := State.drain_unfold hq
    obtain ⟨hext, hextops⟩ := State.drain_unfold (State.extend_quiescent y q hq)
    rw [State.extend_decoderStep y q hq] at hext hextops
    rw [hext, hextops, hs, hops, State.extend_nextOp y q hq, List.cons_append, ← ih.2]
    exact ⟨ih.1, rfl⟩

theorem State.drain_append (s : State) (y : List Byte) :
    (s.append y).drain = (s.drain.append y).drain ∧ (s.append y).drainOps = s.drainOps ++ (s.drain.append y).drainOps := by
  rw [State.append_eq_extend s.drain, s.drain_frame.2.2]
  exact s.drain_extend y s.inbox

theorem State.append_append (s : State) (x y : List Byte) : (s.append x).append y = s.append (x ++ y) :=
  State.eq_of_fields rfl rfl (List.append_assoc _ _ _) rfl rfl rfl rfl

theorem State.append_nil (s : State) : s.append [] = s :=
  State.eq_of_fields rfl rfl (List.append_nil _) rfl rfl rfl rfl

/-- R121: the FEEDs of the chunks are one FEED of the stream. -/
theorem State.feedAll_eq_feed_flatten (xs : List (List Byte)) {s : State} (hq : s.quiescent = true) :
    s.feedAll xs = s.feed xs.flatten ∧ s.feedOps xs = (s.append xs.flatten).drainOps := by
  induction xs generalizing s with
  | nil =>
    obtain ⟨hs, hops⟩ := State.drain_of_quiescent hq
    rw [List.flatten_nil, State.feed, State.append_nil, hs, hops]
    exact ⟨rfl, rfl⟩
  | cons x xs ih =>
    obtain ⟨hs, hops⟩ := ih (s := s.feed x) (s.append x).drain_quiescent
    obtain ⟨hdrain, hdrainops⟩ := (s.append x).drain_append xs.flatten
    rw [List.flatten_cons, State.feed, ← State.append_append, hdrain, hdrainops, State.feedOps, hops]
    exact ⟨hs, rfl⟩

/-- Settles O37: either division gives what the undivided stream gives (`State.feedAll_eq_feed_flatten`). -/
theorem chunkBoundariesDoNotMatter : Obligations.ChunkBoundariesDoNotMatter := by
  intro s xs ys hq _ _ hflat
  obtain ⟨hxs, hxops⟩ := State.feedAll_eq_feed_flatten xs hq
  obtain ⟨hys, hyops⟩ := State.feedAll_eq_feed_flatten ys hq
  rw [hxs, hxops, hys, hyops, hflat]
  exact ⟨rfl, rfl⟩

/-- One transition before an append is made up by the drain after it. -/
theorem State.drain_append_decoderStep (s : State) (y : List Byte) : (s.decoderStep.append y).drain = (s.append y).drain := by
  cases hq : s.quiescent with
  | true => rw [State.decoderStep_of_quiescent hq]
  | false => rw [(s.drain_append y).1, (s.decoderStep.drain_append y).1, (State.drain_unfold hq).1]

/-- Settles O38, by induction on the moves: an append joins the appends to come, and a transition is made up by the drain. -/
theorem interleavingDoesNotMatter : Obligations.InterleavingDoesNotMatter := by
  intro s moves
  induction moves generalizing s with
  | nil => exact congrArg State.drain s.append_nil.symm
  | cons m moves ih =>
    rw [List.foldl_cons, ih]
    cases m with
    | none => exact s.drain_append_decoderStep _
    | some x => exact congrArg State.drain (s.append_append x _)

/-! ### The stream function is monotone (R122) -/

/-- A drain only appends to the traces. -/
theorem State.drain_traces_prefix (s : State) : s.out <+: s.drain.out ∧ s.dg <+: s.drain.dg := by
  induction s using State.drain_induction with
  | stop s hq => simp [(State.drain_of_quiescent hq).1]
  | turn s hq ih =>
    rw [(State.drain_unfold hq).1]
    obtain ⟨hout, hdg⟩ := s.decoderStep_traces_grow
    refine ⟨List.IsPrefix.trans ?_ ih.1, List.IsPrefix.trans ?_ ih.2⟩
    · obtain ho | ⟨-, -, p, ho⟩ := hout
      · exact ho ▸ List.prefix_rfl
      · exact ho ▸ List.prefix_append _ _
    · obtain hd | ⟨-, -, c, hd⟩ := hdg
      · exact hd ▸ List.prefix_rfl
      · exact hd ▸ List.prefix_append _ _

/-- Settles O40: a longer stream is drained from where the drain of the shorter one ends. -/
theorem streamFunctionIsMonotone : Obligations.StreamFunctionIsMonotone := by
  intro cfg x y
  have hlonger : decodeStream cfg (x ++ y) = ((decodeStream cfg x).append y).drain := by
    rw [decodeStream, State.feed, ← State.append_append]
    exact (State.drain_append _ y).1
  rw [hlonger]
  exact State.drain_traces_prefix ((decodeStream cfg x).append y)

/-! ### The machine runs the reference schedule (R119) -/

/-- Some number of steps leads from one state to the other. -/
def Reaches (s t : State) : Prop := ∃ k, Host.Core.run core k s = .next t

theorem Reaches.head {s t u : State} (hstep : step s = .next t) (h : Reaches t u) : Reaches s u := by
  obtain ⟨k, hk⟩ := h
  refine ⟨k + 1, ?_⟩
  simp only [Host.Core.run, show core.step s = .next t from hstep]
  exact hk

/-- While only PUSHes wait, the machine drains before anything else (log 2). -/
theorem Reaches.of_drain {s u : State} {xs : List (List Byte)} (hi : s.inbox = xs.map .push) (h : Reaches s.drain u) :
    Reaches s u := by
  induction s using State.drain_induction with
  | stop s hq => rwa [(State.drain_of_quiescent hq).1] at h
  | turn s hq ih =>
    have hstep : step s = .next s.decoderStep := by
      rw [step_of_inbox, hi]
      cases xs with
      | nil => rfl
      | cons x xs => simp [hq]
    rw [(State.drain_unfold hq).1] at h
    exact (ih (s.decoderStep_frame.2.2.1.trans hi) h).head hstep

/-- A PUSH at the head of the queue is taken at quiescence when it is admissible. -/
theorem step_of_push {s : State} {x : List Byte} {rest : List EnvEvent} (hi : s.inbox = .push x :: rest) (hq : s.quiescent = true)
    (hopen : s.closed = false) (hx : x ≠ []) (hfits : s.fits x = true) : step s = .next (s.popInbox.append x) := by
  rw [step_of_inbox, hi]
  simp only [hq, if_true]
  exact execPush_eq_next.mpr ⟨hx, hopen, hq, hfits, rfl⟩

/-- R221: at most 262 bytes are left at quiescence. -/
theorem State.length_le_of_quiescent {s : State} (hq : s.quiescent = true) : s.buf.length ≤ 262 := by
  have hneed : s.buf.length < s.need := (State.quiescent_iff s).mp hq
  cases hf : s.fs with
  | awaitingHeader => simp only [State.need, hf, Config.ahNeed] at hneed; omega
  | headerPending => simp only [State.need, hf, Config.hdrLen] at hneed; omega
  | payloadPending t l =>
    have hl : l.toNat < 256 := l.isLt
    simp only [State.need, hf, needLen, Config.needOverhead] at hneed
    omega

/-- FEED does not look at the queue. -/
theorem State.feed_withInbox (s : State) (x : List Byte) (q : List EnvEvent) :
    ({ s with inbox := q } : State).feed x = { s.feed x with inbox := q } := by
  have hext : ∀ u : State, u.extend [] q = { u with inbox := q } := fun u =>
    State.eq_of_fields rfl rfl (List.append_nil _) rfl rfl rfl rfl
  have hquiet : ((s.feed x).extend [] q).quiescent = true := by
    rw [hext]
    exact (s.append x).drain_quiescent
  calc ({ s with inbox := q } : State).feed x
    _ = ((s.append x).extend [] q).drain := by rw [hext]; rfl
    _ = ((s.feed x).extend [] q).drain := ((s.append x).drain_extend [] q).1
    _ = { s.feed x with inbox := q } := by rw [(State.drain_of_quiescent hquiet).1, hext]

/-- The schedule from a state in whose queue the chunks wait. -/
theorem reaches_feedAll {xs : List (List Byte)} {s : State} (hi : s.inbox = xs.map .push) (hq : s.quiescent = true)
    (hopen : s.closed = false) (hcap : ∀ n, s.cfg.bufCap = some n → ∀ x ∈ xs, 262 + x.length ≤ n) (hne : ∀ x ∈ xs, x ≠ []) :
    Reaches s (({ s with inbox := [] } : State).feedAll xs) := by
  induction xs generalizing s with
  | nil =>
    have hs : s = { s with inbox := [] } := State.eq_of_fields rfl rfl rfl rfl rfl rfl hi
    exact ⟨0, congrArg Host.Outcome.next hs⟩
  | cons x xs ih =>
    have hfits : s.fits x = true := (State.fits_iff s x).mpr fun n hn => by
      have := hcap n hn x List.mem_cons_self
      have := State.length_le_of_quiescent hq
      omega
    have hrest : (s.popInbox.append x).inbox = xs.map .push := by simp [hi]
    obtain ⟨hcfg, hclosed, hinbox⟩ := (s.popInbox.append x).drain_frame
    refine (Reaches.of_drain hrest ?_).head (step_of_push hi hq hopen (hne x List.mem_cons_self) hfits)
    have hfeed : ({ s with inbox := [] } : State).feed x = { s.popInbox.feed x with inbox := [] } :=
      s.popInbox.feed_withInbox x []
    rw [State.feedAll, List.foldl_cons, hfeed]
    exact ih (hinbox.trans hrest) (State.drain_quiescent _) (hclosed.trans hopen)
      (fun n hn y hy => hcap n (by rwa [hcfg] at hn) y (List.mem_cons_of_mem x hy)) fun y hy => hne y (List.mem_cons_of_mem x hy)

/-- Settles O39: `reaches_feedAll` from the state with the chunks put in its queue. -/
theorem stepsRunReferenceSchedule : Obligations.StepsRunReferenceSchedule := by
  intro s xs hi hq hopen hcap hne
  have h := reaches_feedAll (xs := xs) (s := { s with inbox := xs.map .push }) rfl hq hopen hcap hne
  rwa [show ({ s with inbox := [] } : State) = s from State.eq_of_fields rfl rfl rfl rfl rfl rfl hi.symm] at h

end Sys2Proof.Machine

namespace Sys2Proof.Machine

/-! ### The decoder's search through noise (T1 of 95_test_vectors.md section 1, R133, R142, R143) -/

/-- The decoder looks for a header in `v`: in AwaitingHeader `v` is the buffer; in HeaderPending AH.SYNC has dropped the first byte of the
marker that `v` begins with. -/
inductive Searches (s : State) (v : List Byte) : Prop where
  | awaiting (hf : s.fs = .awaitingHeader) (hb : s.buf = v)
  | pending (rest : List Byte) (hf : s.fs = .headerPending) (hb : s.buf = Config.sync1 :: rest) (hv : v = Config.sync0 :: s.buf)

theorem Searches.length_le_of_quiescent {s : State} {v : List Byte} (h : Searches s v) (hq : s.quiescent = true) :
    v.length ≤ 5 := by
  have hneed := (State.quiescent_iff s).mp hq
  obtain ⟨hf, rfl⟩ | ⟨_, hf, -, rfl⟩ := h
  · simp only [State.need, hf, Config.ahNeed] at hneed
    omega
  · simp only [State.need, hf, Config.hdrLen] at hneed
    exact hneed

theorem goodHeaderAt_drop (v : List Byte) (j i : Nat) : goodHeaderAt (v.drop j) i = goodHeaderAt v (j + i) := by
  have hlen : i + 6 ≤ v.length - j ↔ j + i + 6 ≤ v.length := by omega
  simp only [goodHeaderAt, List.drop_drop, List.length_drop, hlen, ← Nat.add_assoc]

/-- The header that HP.ACCEPT takes, behind its marker, is a good header at the front. -/
theorem goodHeaderAt_zero_of_accept {s : State} {rest : List Byte} (hn : s.nextOp = .hpAccept)
    (hb : s.buf = Config.sync1 :: rest) : goodHeaderAt (Config.sync0 :: s.buf) 0 = true := by
  obtain ⟨-, hlen, hok, t, l, hfields⟩ := State.fields_of_accept hn
  have hknown : s.buf.typeKnown = true := (Memory.typeKnown_iff _).mpr ⟨t, (Memory.headerFields_eq_some.mp hfields).1⟩
  have hmarker : Memory.markerAtFront (Config.sync0 :: s.buf) = true := (Memory.markerAtFront_iff _).mpr ⟨rest, by rw [hb]⟩
  simpa [goodHeaderAt, hmarker, hok, hknown] using hlen

/-- Without a good header at the front, a transition goes on searching in the same bytes or behind the first one, or, after a marker whose
header fails, behind the marker; and it emits nothing. -/
theorem Searches.decoderStep {s : State} {v : List Byte} (h : Searches s v) (hq : s.quiescent = false)
    (hbad : goodHeaderAt v 0 = false) :
    s.decoderStep.out = s.out ∧ ∃ j, Searches s.decoderStep (v.drop j) ∧ (j ≤ 1 ∨ (j = 2 ∧ v[1]? = some Config.sync1)) := by
  obtain ⟨hf, rfl⟩ | ⟨rest, hf, hb, rfl⟩ := h
  case awaiting =>
    obtain ⟨hq', -⟩ | ⟨-, -, ⟨rest, hb⟩, he⟩ | ⟨-, -, -, -, he⟩ | ⟨-, hf', -⟩ | ⟨-, hf', -⟩ | ⟨-, hf', -⟩ | ⟨_, _, hf', -⟩ :=
      (decoder_cases s).2
    · simp [hq] at hq'
    · exact ⟨by simp [he], 0, .pending rest (by simp [he]) (by simp [he, hb]) (by simp [he, hb]), .inl (Nat.zero_le 1)⟩
    · exact ⟨by simp [he], 1, .awaiting (by simp [he]) (by simp [he]), .inl le_rfl⟩
    all_goals simp [hf] at hf'
  case pending =>
    have resync : ∀ {c}, s.decoderStep = s.raiseResync c → s.decoderStep.out = s.out ∧
        ∃ j, Searches s.decoderStep ((Config.sync0 :: s.buf).drop j) ∧
          (j ≤ 1 ∨ (j = 2 ∧ (Config.sync0 :: s.buf)[1]? = some Config.sync1)) := fun he =>
      ⟨by simp [he], 2, .awaiting (by simp [he]) (by simp [he]), .inr ⟨rfl, by simp [hb]⟩⟩
    obtain ⟨hq', -⟩ | ⟨-, hf', -⟩ | ⟨-, hf', -⟩ | ⟨hn, -⟩ | ⟨-, -, -, -, -, he⟩ | ⟨-, -, -, -, he⟩ | ⟨_, _, hf', -⟩ :=
      (decoder_cases s).2
    · simp [hq] at hq'
    · simp [hf] at hf'
    · simp [hf] at hf'
    · simp [goodHeaderAt_zero_of_accept hn hb] at hbad
    · exact resync he
    · exact resync he
    · simp [hf] at hf'

/-- A drain searches through noise up to the bytes behind it, unless it stops before, and emits nothing on the way. No marker lies across
the border, for the bytes behind the noise do not begin with `0xFC`. -/
theorem Searches.through_noise {s : State} {noise rest : List Byte} (h : Searches s (noise ++ rest))
    (hrest : rest[0]? ≠ some Config.sync1) (hbad : ∀ i < noise.length, goodHeaderAt (noise ++ rest) i = false) :
    ∃ (u : State) (v : List Byte), Searches u v ∧ u.out = s.out ∧ u.drain = s.drain ∧
      (v = rest ∨ (u.quiescent = true ∧ rest.length ≤ v.length)) := by
  induction s using State.drain_induction generalizing noise with
  | stop s hq => exact ⟨s, _, h, rfl, rfl, .inr ⟨hq, by simp⟩⟩
  | turn s hq ih =>
    cases noise with
    | nil => exact ⟨s, _, h, rfl, rfl, .inl rfl⟩
    | cons b noise =>
      obtain ⟨hout, j, hj, hjle⟩ := h.decoderStep hq (hbad 0 (Nat.zero_lt_succ _))
      have hle : j ≤ (b :: noise).length := by
        obtain hone | ⟨rfl, hmark⟩ := hjle
        · exact hone.trans (Nat.succ_le_succ (Nat.zero_le _))
        · cases noise with
          | nil => exact absurd hmark hrest
          | cons c noise => simp
      have hdrop : (b :: noise ++ rest).drop j = (b :: noise).drop j ++ rest := List.drop_append_of_le_length hle
      rw [hdrop] at hj
      obtain ⟨u, v, hu, huout, hudrain, hv⟩ := ih hj fun i hi => by
        rw [List.length_drop] at hi
        rw [← hdrop, goodHeaderAt_drop]
        exact hbad (j + i) (by omega)
      exact ⟨u, v, hu, huout.trans hout, hudrain.trans (State.drain_unfold hq).1.symm, hv⟩

theorem Searches.quiescent_of_nil {s : State} (h : Searches s []) : s.quiescent = true := by
  obtain ⟨-, hb⟩ | ⟨_, -, -, hv⟩ := h
  · exact State.quiescent_of_weight (.inl hb)
  · cases hv

/-- From noise to the end nothing is emitted. -/
theorem State.drain_out_of_noise {s : State} (hf : s.fs = .awaitingHeader) (hbad : ∀ i, goodHeaderAt s.buf i = false) :
    s.drain.out = s.out := by
  obtain ⟨u, v, hu, hout, hdrain, hv⟩ := Searches.through_noise (noise := s.buf) (rest := [])
    (.awaiting hf (List.append_nil _).symm) nofun fun i _ => by rw [List.append_nil]; exact hbad i
  have hq : u.quiescent = true := by
    obtain rfl | ⟨hq, -⟩ := hv
    · exact hu.quiescent_of_nil
    · exact hq
  rw [← hdrain, (State.drain_of_quiescent hq).1, hout]

/-- R131: a marker at the front leads to HeaderPending, if the search is not there already. -/
theorem Searches.drain_of_marker {s : State} {b rest : List Byte} (h : Searches s (Config.sync0 :: b))
    (hb : b = Config.sync1 :: rest) : s.drain = ({ s with fs := .headerPending, buf := b } : State).drain := by
  obtain ⟨hf, hbuf⟩ | ⟨_, hf, -, hv⟩ := h
  · subst hb
    exact State.drain_of_marker hf hbuf
  · obtain rfl : b = s.buf := (List.cons.inj hv).2
    exact congrArg State.drain (State.eq_of_fields rfl hf rfl rfl rfl rfl rfl)

/-- R131, R141, R153: a wire frame that the search has reached is emitted when a byte follows it. -/
theorem Searches.drain_of_wireOf {s : State} {t : PacketType} {r g : Byte} {p rest : List Byte} (hp : p.length ≤ 255)
    (h : Searches s (wireOf (typeCode t) r p ++ g :: rest)) : s.drain =
      ({ s with fs := .awaitingHeader, buf := g :: rest, out := s.out ++ [⟨t, frameOf (typeCode t) r p⟩] } : State).drain := by
  have hmarked : s.drain = ({ s with fs := .headerPending, buf := frameOf (typeCode t) r p ++ g :: rest } : State).drain :=
    h.drain_of_marker rfl
  have hheader : frameOf (typeCode t) r p ++ g :: rest =
      headerBytes t (BitVec.ofNat 8 p.length) r (crc8 (frameHead (typeCode t) r p)) ++
        ([highByte (crc16 p), lowByte (crc16 p)] ++ p ++ g :: rest) := rfl
  rw [hmarked, State.drain_of_goodHeader rfl hheader (crc8_frameOf_header t r p)]
  exact State.drain_of_goodFrame rfl rfl (frameOf_length t r hp) (payOk_frameOf t r hp)

/-- Settles O44: the chunks are one FEED (R121); the search reaches the wire frame through the noise before it, emits it, and finds nothing
in the noise behind it. -/
theorem frameInNoiseIsFound : Obligations.FrameInNoiseIsFound := by
  intro cfg t r p noise₁ noise₂ chunks hp hne hbad _ hflat
  obtain ⟨g, rest, rfl⟩ := List.exists_cons_of_ne_nil hne
  rw [List.append_assoc] at hbad hflat
  rw [(State.feedAll_eq_feed_flatten chunks rfl).1, hflat, State.feed]
  obtain ⟨u, v, hu, hout, hdrain, hv⟩ := Searches.through_noise (noise := noise₁) (rest := wireOf (typeCode t) r p ++ g :: rest)
    (s := ({ State.reset with cfg := cfg } : State).append (noise₁ ++ (wireOf (typeCode t) r p ++ g :: rest)))
    (.awaiting rfl rfl) (show some Config.sync0 ≠ some Config.sync1 by decide) fun i hi => hbad i hi.ne
  have hwire : v = wireOf (typeCode t) r p ++ g :: rest := hv.resolve_right fun ⟨hq, hlen⟩ => by
    have hshort := hu.length_le_of_quiescent hq
    simp only [wireOf, List.length_append, List.length_cons, frameOf_length t r hp, frameLen, Config.frameOverhead] at hlen
    omega
  have hnoise : ∀ i, goodHeaderAt (g :: rest) i = false := fun i => by
    have htail : g :: rest = (noise₁ ++ (wireOf (typeCode t) r p ++ g :: rest)).drop
        (noise₁.length + (wireOf (typeCode t) r p).length) := by simp
    rw [htail, goodHeaderAt_drop]
    have hpos : 0 < (wireOf (typeCode t) r p).length := Nat.zero_lt_succ _
    exact hbad _ (by omega)
  subst hwire
  rw [← hdrain, hu.drain_of_wireOf hp, State.drain_out_of_noise rfl hnoise]
  simp [hout, State.reset]

end Sys2Proof.Machine

namespace Sys2Proof.Machine

/-! ### The transitions of AwaitingHeader, each by the states that select it (R130 to R132, R116) -/

/-- R81: each transition has one row, which the decision word matches when the transition is selected. -/
theorem State.decisionWord_of_row {s : State} {pat mask : BitVec 5} {i : Instr} (hr : ⟨pat, mask, i⟩ ∈ decisionRows)
    (hn : s.nextOp = i) : s.decisionWord &&& mask = pat := by
  have hunique : ∀ r ∈ decisionRows, ∀ r' ∈ decisionRows, r.op = r'.op → r = r' := by decide
  obtain ⟨r, hr', hop, hmatch⟩ := row_of_decodeDecision (decodeDecision_decisionWord s)
  obtain rfl := hunique r hr' _ hr (hop.trans hn)
  exact hmatch

theorem State.nextOp_of_lt_two_bytes {s : State} (hf : s.fs = .awaitingHeader) (h : s.buf.length < 2) : s.nextOp = .ahWait := by
  simp only [State.nextOp, hf, Config.ahNeed, if_pos h]

theorem State.nextOp_of_two_bytes {s : State} {a b : Byte} {rest : List Byte} (hf : s.fs = .awaitingHeader)
    (hb : s.buf = a :: b :: rest) : s.nextOp = if a = 0xFD#8 ∧ b = 0xFC#8 then .ahSync else .ahSkip := by
  simp [State.nextOp, hf, hb, Memory.markerAtFront, Memory.byteAt]

/-- What the selection of one of the three says about the frame state and the buffer. -/
theorem State.awaitingHeader_of_nextOp {s : State} {i : Instr} (hn : s.nextOp = i) (hi : i ∈ [.ahWait, .ahSync, .ahSkip]) :
    s.fs = .awaitingHeader ∧
    ((i = .ahWait ∧ s.buf.length < 2) ∨
     (i = .ahSync ∧ ∃ rest, s.buf = 0xFD#8 :: 0xFC#8 :: rest) ∨
     (i = .ahSkip ∧ ∃ a b rest, s.buf = a :: b :: rest ∧ ¬ (a = 0xFD#8 ∧ b = 0xFC#8))) := by
  subst hn
  cases hf : s.fs with
  | headerPending =>
    rw [State.nextOp_headerPending hf] at hi
    split_ifs at hi <;> simp at hi
  | payloadPending t l =>
    rw [State.nextOp_payloadPending hf] at hi
    split_ifs at hi <;> simp at hi
  | awaitingHeader =>
    refine ⟨rfl, ?_⟩
    by_cases hlen : s.buf.length < 2
    · exact .inl ⟨State.nextOp_of_lt_two_bytes hf hlen, hlen⟩
    obtain ⟨a, b, rest, hb⟩ : ∃ a b rest, s.buf = a :: b :: rest := by
      rcases hb : s.buf with _ | ⟨a, _ | ⟨b, rest⟩⟩ <;> simp [hb] at hlen ⊢
    have hn := State.nextOp_of_two_bytes hf hb
    by_cases hm : a = 0xFD#8 ∧ b = 0xFC#8
    · obtain ⟨rfl, rfl⟩ := hm
      exact .inr (.inl ⟨hn, rest, hb⟩)
    · exact .inr (.inr ⟨hn.trans (if_neg hm), a, b, rest, hb, hm⟩)

theorem State.nextOp_eq_ahWait_iff (s : State) : s.nextOp = .ahWait ↔ s.fs = .awaitingHeader ∧ s.buf.length < 2 := by
  refine ⟨fun hn => ?_, fun ⟨hf, hlen⟩ => State.nextOp_of_lt_two_bytes hf hlen⟩
  obtain ⟨hf, ⟨-, hlen⟩ | ⟨⟨⟩, -⟩ | ⟨⟨⟩, -⟩⟩ := State.awaitingHeader_of_nextOp hn (by decide)
  exact ⟨hf, hlen⟩

theorem State.nextOp_eq_ahSync_iff (s : State) :
    s.nextOp = .ahSync ↔ s.fs = .awaitingHeader ∧ ∃ rest, s.buf = 0xFD#8 :: 0xFC#8 :: rest := by
  refine ⟨fun hn => ?_, fun ⟨hf, rest, hb⟩ => State.nextOp_of_two_bytes hf hb⟩
  obtain ⟨hf, ⟨⟨⟩, -⟩ | ⟨-, hb⟩ | ⟨⟨⟩, -⟩⟩ := State.awaitingHeader_of_nextOp hn (by decide)
  exact ⟨hf, hb⟩

theorem State.nextOp_eq_ahSkip_iff (s : State) : s.nextOp = .ahSkip ↔
    s.fs = .awaitingHeader ∧ ∃ a b rest, s.buf = a :: b :: rest ∧ ¬ (a = 0xFD#8 ∧ b = 0xFC#8) := by
  refine ⟨fun hn => ?_, fun ⟨hf, a, b, rest, hb, hm⟩ => (State.nextOp_of_two_bytes hf hb).trans (if_neg hm)⟩
  obtain ⟨hf, ⟨⟨⟩, -⟩ | ⟨⟨⟩, -⟩ | ⟨-, hb⟩⟩ := State.awaitingHeader_of_nextOp hn (by decide)
  exact ⟨hf, hb⟩

/-- Settles O5: AH.WAIT is selected exactly there (`State.nextOp_eq_ahWait_iff`), and it is a WAIT, at which a drain stops. -/
theorem ahWaitChangesNothing : Obligations.AhWaitChangesNothing := by
  intro s
  rw [← State.nextOp_eq_ahWait_iff]
  refine ⟨fun hn => ⟨State.decisionWord_of_row (by decide) hn, State.whenSelected_of_eq s hn, ?_⟩, fun hn => ?_⟩
  · have hq : s.quiescent = true := by rw [State.quiescent, hn]; rfl
    exact (State.drain_of_quiescent hq).1
  · exact exec_transition_of_ne_nextOp (by decide) (Ne.symm hn)

/-- AH.SYNC (R131), where it is selected, in terms of the fields. -/
theorem exec_ahSync {s : State} {rest : List Byte} (hf : s.fs = .awaitingHeader) (hb : s.buf = 0xFD#8 :: 0xFC#8 :: rest) :
    exec .ahSync s = .next { s with fs := .headerPending, buf := 0xFC#8 :: rest } := by
  have hn : s.nextOp = .ahSync := (State.nextOp_eq_ahSync_iff s).mpr ⟨hf, rest, hb⟩
  refine (State.whenSelected_of_eq _ hn).trans (congrArg _ ?_)
  exact State.eq_of_fields rfl rfl (by simp [hb]) rfl rfl rfl rfl

/-- AH.SKIP (R132, R182), where it is selected, in terms of the fields. -/
theorem exec_ahSkip {s : State} (hn : s.nextOp = .ahSkip) : exec .ahSkip s =
    .next { s with buf := s.buf.drop 1, dg := if s.cfg.diagEn then s.dg ++ [.badSync] else s.dg } := by
  obtain ⟨hf, -⟩ := (State.nextOp_eq_ahSkip_iff s).mp hn
  refine (State.whenSelected_of_eq _ hn).trans (congrArg _ ?_)
  apply State.eq_of_fields <;> simp [hf]

/-- Settles O6: AH.SYNC is selected exactly there (`State.nextOp_eq_ahSync_iff`), with the effect `exec_ahSync`. -/
theorem ahSyncDropsFirstMarkerByte : Obligations.AhSyncDropsFirstMarkerByte := by
  intro s
  rw [← State.nextOp_eq_ahSync_iff]
  refine ⟨fun rest hf hb => ⟨?_, exec_ahSync hf hb⟩, fun hn => exec_transition_of_ne_nextOp (by decide) (Ne.symm hn)⟩
  exact State.decisionWord_of_row (by decide) ((State.nextOp_eq_ahSync_iff s).mpr ⟨hf, rest, hb⟩)

/-- Settles O7: AH.SKIP is selected exactly there (`State.nextOp_eq_ahSkip_iff`), with the effect `exec_ahSkip`. -/
theorem ahSkipDropsOneByte : Obligations.AhSkipDropsOneByte := by
  intro s
  rw [← State.nextOp_eq_ahSkip_iff]
  refine ⟨fun a b rest hf hb hm => ?_, fun hn => exec_transition_of_ne_nextOp (by decide) (Ne.symm hn)⟩
  have hn : s.nextOp = .ahSkip := (State.nextOp_eq_ahSkip_iff s).mpr ⟨hf, a, b, rest, hb, hm⟩
  refine ⟨State.decisionWord_of_row (by decide) hn, ?_⟩
  rw [exec_ahSkip hn, hb]
  rfl

/-! ### The scan of AwaitingHeader (R133) -/

/-- The state after `n` AH.SKIPs: the front dropped, and a BAD_SYNC reported for each byte. -/
def State.skipped (s : State) (n : Nat) : State :=
  { s with buf := s.buf.drop n, dg := if s.cfg.diagEn then s.dg ++ List.replicate n .badSync else s.dg }

section
variable (s : State) (n : Nat)
@[simp] theorem State.skipped_fs : (s.skipped n).fs = s.fs := rfl
@[simp] theorem State.skipped_buf : (s.skipped n).buf = s.buf.drop n := rfl
end

theorem State.decoderSteps_succ (n : Nat) (s : State) :
    State.decoderSteps (n + 1) s = (State.decoderSteps n s).decoderStep := by
  induction n generalizing s with
  | zero => rfl
  | succ n ih => exact ih s.decoderStep

/-- A drain makes up for the transitions taken before it. -/
theorem State.drain_decoderSteps (n : Nat) (s : State) : (State.decoderSteps n s).drain = s.drain := by
  induction n with
  | zero => rfl
  | succ n ih =>
    have hstep := (State.decoderSteps n s).drain_append_decoderStep []
    rw [State.append_nil, State.append_nil] at hstep
    rw [State.decoderSteps_succ, hstep, ih]

/-- One more AH.SKIP, at two bytes without a marker in front. -/
theorem State.skipped_decoderStep {s : State} {n : Nat} (hf : s.fs = .awaitingHeader) (hlen : n + 2 ≤ s.buf.length)
    (hm : Memory.markerAtFront (s.buf.drop n) = false) : (s.skipped n).decoderStep = s.skipped (n + 1) := by
  have hn : (s.skipped n).nextOp = .ahSkip := by
    have hlen' : ¬ (s.buf.drop n).length < 2 := by
      rw [List.length_drop]
      omega
    simp only [State.nextOp, State.skipped_fs, hf, State.skipped_buf, Config.ahNeed, if_neg hlen', hm, Bool.false_eq_true, if_false]
  rw [State.decoderStep_of_exec hn (exec_ahSkip hn)]
  refine State.eq_of_fields rfl rfl List.drop_drop rfl rfl ?_ rfl
  cases hd : s.cfg.diagEn <;> simp [State.skipped, hd, List.replicate_succ']

/-- R133: while no marker begins, one byte is dropped a transition, as long as one is left behind it. -/
theorem State.decoderSteps_eq_skipped {s : State} {n : Nat} (hf : s.fs = .awaitingHeader) (hlen : n < s.buf.length)
    (hm : ∀ i < n, Memory.markerAtFront (s.buf.drop i) = false) : State.decoderSteps n s = s.skipped n := by
  induction n with
  | zero => simp [State.decoderSteps, State.skipped]
  | succ n ih =>
    rw [State.decoderSteps_succ, ih (by omega) fun i hi => hm i (by omega)]
    exact State.skipped_decoderStep hf hlen (hm n (Nat.lt_succ_self n))

/-- Settles O42: the bytes before the marker, or all but the last, are skipped one a transition (`State.decoderSteps_eq_skipped`); then
AH.SYNC is taken (`exec_ahSync`), or the one byte left is not enough for a transition. -/
theorem scanStopsAtFirstMarker : Obligations.ScanStopsAtFirstMarker := by
  refine ⟨fun s pre rest hf hb hm => ?_, fun s pre b hf hb hm => ?_⟩
  · have hskip : State.decoderSteps pre.length s = s.skipped pre.length :=
      State.decoderSteps_eq_skipped hf (by simp [hb]) hm
    have hbuf : (s.skipped pre.length).buf = 0xFD#8 :: 0xFC#8 :: rest := by simp [hb]
    have hn : (s.skipped pre.length).nextOp = .ahSync := (State.nextOp_eq_ahSync_iff _).mpr ⟨hf, rest, hbuf⟩
    rw [State.decoderSteps_succ, hskip, State.decoderStep_of_exec hn (exec_ahSync hf hbuf)]
    rfl
  · have hskip : State.decoderSteps pre.length s = s.skipped pre.length :=
      State.decoderSteps_eq_skipped hf (by simp [hb]) fun i _ => hm i
    have hbuf : (s.skipped pre.length).buf = [b] := by simp [hb]
    have hstop : (s.skipped pre.length).drain = s.skipped pre.length :=
      State.drain_of_length_lt_need (by rw [hbuf, State.need, State.skipped_fs, hf]; exact Nat.one_lt_two)
    rw [← State.drain_decoderSteps pre.length s, hskip, hstop]
    exact State.eq_of_fields rfl rfl hbuf rfl rfl rfl rfl

end Sys2Proof.Machine

namespace Sys2Proof.Machine

/-! ### The header check (R144) -/

/-- Settles O51: CRC-8 over the five bytes is zero exactly when the last is the checksum of the other four (`crc8_eq_zero_iff_getElem`). -/
theorem headerCheckComparesField : Obligations.HeaderCheckComparesField := by
  intro b hlen
  have hfive : (b.take 5).length = 4 + 1 := List.length_take_of_le hlen
  refine ⟨b.hdrOk_iff, b.hdrOk_iff.trans ?_⟩
  rw [crc8_eq_zero_iff_getElem hfive, List.getElem?_take_of_lt (by decide), List.take_take]
  rfl

/-! ### The transitions of HeaderPending, each by the states that select it (R140 to R143, R116) -/

/-- The transition that a whole header region selects: the checksum before the type (R116). -/
def headerVerdict (m t l r c : Byte) : Instr :=
  if crc8 [m, t, l, r, c] = 0x00#8 then if known t then .hpAccept else .hpBadtype else .hpBadcrc

section
variable {m t l r c : Byte}

theorem headerVerdict_eq_hpAccept_iff :
    headerVerdict m t l r c = .hpAccept ↔ crc8 [m, t, l, r, c] = 0x00#8 ∧ ∃ p, t = typeCode p := by
  rw [← known_iff_typeCode, headerVerdict]
  split_ifs <;> simp [*]

theorem headerVerdict_eq_hpBadtype_iff : headerVerdict m t l r c = .hpBadtype ↔
    crc8 [m, t, l, r, c] = 0x00#8 ∧ t ∉ [0x00#8, 0x40#8, 0x41#8, 0x42#8, 0x58#8] := by
  rw [← known_iff_mem, headerVerdict]
  split_ifs <;> simp [*]

theorem headerVerdict_eq_hpBadcrc_iff : headerVerdict m t l r c = .hpBadcrc ↔ crc8 [m, t, l, r, c] ≠ 0x00#8 := by
  rw [headerVerdict]
  split_ifs <;> simp [*]

theorem headerVerdict_ne_hpWait : headerVerdict m t l r c ≠ .hpWait := by
  rw [headerVerdict]
  split_ifs <;> simp

end

theorem State.nextOp_of_lt_five_bytes {s : State} (hf : s.fs = .headerPending) (h : s.buf.length < 5) : s.nextOp = .hpWait := by
  simp only [State.nextOp, hf, Config.hdrLen, if_pos h]

theorem State.nextOp_of_five_bytes {s : State} {m t l r c : Byte} {rest : List Byte} (hf : s.fs = .headerPending)
    (hb : s.buf = m :: t :: l :: r :: c :: rest) : s.nextOp = headerVerdict m t l r c := by
  by_cases hcrc : crc8 [m, t, l, r, c] = 0x00#8 <;> simp [State.nextOp, hf, hb, Config.hdrLen, headerVerdict, hcrc]

/-- The four are selected in HeaderPending only. -/
theorem State.headerPending_of_nextOp {s : State} (h : s.nextOp ∈ [.hpWait, .hpAccept, .hpBadtype, .hpBadcrc]) :
    s.fs = .headerPending := by
  cases hf : s.fs with
  | awaitingHeader =>
    rw [State.nextOp_awaitingHeader hf] at h
    split_ifs at h <;> simp at h
  | headerPending => rfl
  | payloadPending t l =>
    rw [State.nextOp_payloadPending hf] at h
    split_ifs at h <;> simp at h

theorem State.nextOp_eq_hpWait_iff (s : State) : s.nextOp = .hpWait ↔ s.fs = .headerPending ∧ s.buf.length < 5 := by
  refine ⟨fun hn => ?_, fun ⟨hf, hlen⟩ => State.nextOp_of_lt_five_bytes hf hlen⟩
  have hf : s.fs = .headerPending := State.headerPending_of_nextOp (by simp [hn])
  refine ⟨hf, Nat.lt_of_not_le fun hlen => ?_⟩
  obtain ⟨m, t, l, r, c, rest, hb⟩ := Memory.exists_header hlen
  exact headerVerdict_ne_hpWait ((State.nextOp_of_five_bytes hf hb).symm.trans hn)

/-- The other three are selected by their verdict on a whole header region. -/
theorem State.nextOp_eq_iff_headerVerdict (s : State) {i : Instr} (hi : i ∈ [.hpAccept, .hpBadtype, .hpBadcrc]) :
    s.nextOp = i ↔ s.fs = .headerPending ∧
      ∃ m t l r c rest, s.buf = m :: t :: l :: r :: c :: rest ∧ headerVerdict m t l r c = i := by
  constructor
  · rintro rfl
    have hf : s.fs = .headerPending := State.headerPending_of_nextOp (List.mem_cons_of_mem _ hi)
    have hlen : 5 ≤ s.buf.length := by
      by_contra hlt
      rw [State.nextOp_of_lt_five_bytes hf (Nat.lt_of_not_le hlt)] at hi
      simp at hi
    obtain ⟨m, t, l, r, c, rest, hb⟩ := Memory.exists_header hlen
    exact ⟨hf, m, t, l, r, c, rest, hb, (State.nextOp_of_five_bytes hf hb).symm⟩
  · rintro ⟨hf, m, t, l, r, c, rest, hb, hv⟩
    exact (State.nextOp_of_five_bytes hf hb).trans hv

theorem State.nextOp_eq_hpAccept_iff (s : State) : s.nextOp = .hpAccept ↔
    s.fs = .headerPending ∧ ∃ m t l r c rest, s.buf = m :: typeCode t :: l :: r :: c :: rest ∧
      crc8 [m, typeCode t, l, r, c] = 0x00#8 := by
  simp only [s.nextOp_eq_iff_headerVerdict (i := .hpAccept) (by decide), headerVerdict_eq_hpAccept_iff]
  constructor
  · rintro ⟨hf, m, _, l, r, c, rest, hb, hcrc, t, rfl⟩
    exact ⟨hf, m, t, l, r, c, rest, hb, hcrc⟩
  · rintro ⟨hf, m, t, l, r, c, rest, hb, hcrc⟩
    exact ⟨hf, m, _, l, r, c, rest, hb, hcrc, t, rfl⟩

theorem State.nextOp_eq_hpBadtype_iff (s : State) : s.nextOp = .hpBadtype ↔
    s.fs = .headerPending ∧ ∃ m t l r c rest, s.buf = m :: t :: l :: r :: c :: rest ∧ crc8 [m, t, l, r, c] = 0x00#8 ∧
      t ∉ [0x00#8, 0x40#8, 0x41#8, 0x42#8, 0x58#8] := by
  simp only [s.nextOp_eq_iff_headerVerdict (i := .hpBadtype) (by decide), headerVerdict_eq_hpBadtype_iff]

theorem State.nextOp_eq_hpBadcrc_iff (s : State) : s.nextOp = .hpBadcrc ↔
    s.fs = .headerPending ∧ ∃ m t l r c rest, s.buf = m :: t :: l :: r :: c :: rest ∧ crc8 [m, t, l, r, c] ≠ 0x00#8 := by
  simp only [s.nextOp_eq_iff_headerVerdict (i := .hpBadcrc) (by decide), headerVerdict_eq_hpBadcrc_iff]

/-- Settles O8: HP.WAIT is selected exactly there (`State.nextOp_eq_hpWait_iff`), and it is a WAIT, at which a drain stops. -/
theorem hpWaitChangesNothing : Obligations.HpWaitChangesNothing := by
  intro s
  rw [← State.nextOp_eq_hpWait_iff]
  refine ⟨fun hn => ⟨State.decisionWord_of_row (by decide) hn, State.whenSelected_of_eq s hn, ?_⟩, fun hn => ?_⟩
  · have hq : s.quiescent = true := by rw [State.quiescent, hn]; rfl
    exact (State.drain_of_quiescent hq).1
  · exact exec_transition_of_ne_nextOp (by decide) (Ne.symm hn)

/-- R81: the row of HP.ACCEPT and that of HP.BADTYPE ignore no bit of the decision word. -/
theorem State.decisionWord_of_exact_row {s : State} {pat : BitVec 5} {i : Instr} (hr : ⟨pat, 0b11111#5, i⟩ ∈ decisionRows)
    (hn : s.nextOp = i) : s.decisionWord = pat := by
  rw [← State.decisionWord_of_row hr hn]
  exact BitVec.and_allOnes.symm

/-- HP.ACCEPT (R141), where it is selected, in terms of the fields. -/
theorem exec_hpAccept {s : State} {t : PacketType} {m l : Byte} {rest : List Byte} (hn : s.nextOp = .hpAccept)
    (hb : s.buf = m :: typeCode t :: l :: rest) : exec .hpAccept s = .next { s with fs := .payloadPending t l } := by
  have hfields : s.buf.headerFields = some (t, l) := Memory.headerFields_eq_some.mpr (by rw [hb]; exact ⟨rfl, rfl⟩)
  simp only [exec, execHpAccept, hfields]
  exact State.whenSelected_of_eq _ hn

/-- R186 in terms of the fields. -/
theorem State.raiseResync_eq {s : State} {b : Byte} {rest : List Byte} (hb : s.buf = b :: rest) (code : DiagCode) :
    s.raiseResync code = { s with fs := .awaitingHeader, buf := rest,
                                  dg := if s.cfg.diagEn then s.dg ++ [code] else s.dg } := by
  apply State.eq_of_fields <;> simp [hb]

/-- Settles O9: HP.ACCEPT is selected exactly there (`State.nextOp_eq_hpAccept_iff`), with the effect `exec_hpAccept`. -/
theorem hpAcceptRecordsTypeAndLength : Obligations.HpAcceptRecordsTypeAndLength := by
  intro s
  rw [← State.nextOp_eq_hpAccept_iff]
  refine ⟨fun m t l r c rest hf hb hcrc => ?_, fun hn => exec_transition_of_ne_nextOp (by decide) (Ne.symm hn)⟩
  have hn : s.nextOp = .hpAccept := s.nextOp_eq_hpAccept_iff.mpr ⟨hf, m, t, l, r, c, rest, hb, hcrc⟩
  exact ⟨State.decisionWord_of_exact_row (by decide) hn, exec_hpAccept hn hb⟩

/-- Settles O10: HP.BADTYPE is selected exactly there (`State.nextOp_eq_hpBadtype_iff`), and its effect is the resynchronisation
(`State.raiseResync_eq`). -/
theorem hpBadtypeResynchronises : Obligations.HpBadtypeResynchronises := by
  intro s
  rw [← State.nextOp_eq_hpBadtype_iff]
  refine ⟨fun m t l r c rest hf hb hcrc ht => ?_, fun hn => exec_transition_of_ne_nextOp (by decide) (Ne.symm hn)⟩
  have hn : s.nextOp = .hpBadtype := s.nextOp_eq_hpBadtype_iff.mpr ⟨hf, m, t, l, r, c, rest, hb, hcrc, ht⟩
  rw [← State.raiseResync_eq hb]
  exact ⟨State.decisionWord_of_exact_row (by decide) hn, State.whenSelected_of_eq _ hn⟩

/-- Settles O11: HP.BADCRC is selected exactly there (`State.nextOp_eq_hpBadcrc_iff`), and its effect is the resynchronisation
(`State.raiseResync_eq`). -/
theorem hpBadcrcResynchronises : Obligations.HpBadcrcResynchronises := by
  intro s
  rw [← State.nextOp_eq_hpBadcrc_iff]
  refine ⟨fun m t l r c rest hf hb hcrc => ?_, fun hn => exec_transition_of_ne_nextOp (by decide) (Ne.symm hn)⟩
  have hn : s.nextOp = .hpBadcrc := s.nextOp_eq_hpBadcrc_iff.mpr ⟨hf, m, t, l, r, c, rest, hb, hcrc⟩
  rw [← State.raiseResync_eq hb]
  exact ⟨State.decisionWord_of_row (by decide) hn, State.whenSelected_of_eq _ hn⟩

end Sys2Proof.Machine

namespace Sys2Proof.Machine

/-! ### The payload check (R155) -/

/-- Settles O52: the check reads payload and field alone (`Memory.payOk_parts`), and the residue is zero exactly for the checksum's own two
bytes, the high one first (`crc16_append_eq_zero_iff`). -/
theorem payloadCheckComparesField : Obligations.PayloadCheckComparesField := by
  intro head a b payload rest l hhead hpayload
  have hcheck : Memory.payOk (head ++ [a, b] ++ payload ++ rest) l = true ↔ crc16 (payload ++ [a, b]) = 0x0000#16 := by
    rw [Memory.payOk_parts head a b payload rest l hhead hpayload, beq_iff_eq]
  exact ⟨hcheck, hcheck.trans (crc16_append_eq_zero_iff payload a b)⟩

/-! ### A frame with the guard byte behind it (R152, R153) -/

section
variable {s : State} {t : PacketType} {l g : Byte} {f rest : List Byte}

/-- R152: the guard byte is counted and not read. -/
theorem State.nextOp_of_guardedFrame (hf : s.fs = .payloadPending t l) (hb : s.buf = f ++ g :: rest) (hlen : f.length = frameLen l) :
    s.nextOp = if Memory.payOk f l then .ppEmit else .ppBadcrc := by
  have henough : ¬ (f ++ g :: rest).length < needLen l := by
    simp only [List.length_append, List.length_cons, hlen, frameLen, needLen, Config.frameOverhead, Config.needOverhead]
    omega
  simp only [State.nextOp, hf, hb, if_neg henough, Memory.payOk_append _ hlen.ge]

/-- PP.EMIT (R153), where it is selected, in terms of the fields. -/
theorem exec_ppEmit (hn : s.nextOp = .ppEmit) (hf : s.fs = .payloadPending t l) (hb : s.buf = f ++ g :: rest)
    (hlen : f.length = frameLen l) : exec .ppEmit s =
      .next { s with fs := .awaitingHeader, buf := g :: rest, out := s.out ++ [{ ptype := t, bytes := f }] } := by
  have hframe : s.buf.frame l = f := by simp [Memory.frame, Memory.slice, hb, ← hlen]
  simp only [exec, execPpEmit, hf]
  refine (State.whenSelected_of_eq _ hn).trans (congrArg _ ?_)
  exact State.eq_of_fields rfl rfl (by simp [hb, ← hlen]) rfl (by simp [hframe]) rfl rfl

end

/-- Settles O45: the transition is the frame's alone (`State.nextOp_of_guardedFrame`), and PP.EMIT leaves the guard byte (`exec_ppEmit`). -/
theorem guardByteIsNeverRead : Obligations.GuardByteIsNeverRead := by
  intro s t l f g g' rest hf hlen
  have hverdict : ∀ x : Byte, ({ s with buf := f ++ x :: rest } : State).nextOp =
      if Memory.payOk f l then .ppEmit else .ppBadcrc :=
    fun _ => State.nextOp_of_guardedFrame hf rfl hlen
  exact ⟨(hverdict g).trans (hverdict g').symm, fun hn => exec_ppEmit hn hf rfl hlen⟩

/-! ### The transitions of PayloadPending, each by the states that select it (R150 to R154, R116) -/

/-- The transition that the payload and the CRC-16 field select, once `L + 8` bytes are there (R116). -/
def payloadVerdict (payload : List Byte) (a b : Byte) : Instr :=
  if crc16 (payload ++ [a, b]) = 0x0000#16 then .ppEmit else .ppBadcrc

section
variable {payload : List Byte} {a b : Byte}

theorem payloadVerdict_eq_ppEmit_iff : payloadVerdict payload a b = .ppEmit ↔ crc16 (payload ++ [a, b]) = 0x0000#16 := by
  rw [payloadVerdict]
  split_ifs <;> simp [*]

theorem payloadVerdict_eq_ppBadcrc_iff : payloadVerdict payload a b = .ppBadcrc ↔ crc16 (payload ++ [a, b]) ≠ 0x0000#16 := by
  rw [payloadVerdict]
  split_ifs <;> simp [*]

theorem payloadVerdict_ne_ppWait : payloadVerdict payload a b ≠ .ppWait := by
  rw [payloadVerdict]
  split_ifs <;> simp

end

theorem frame_length_of_parts {head payload : List Byte} {l : Byte} (a b : Byte) (hhead : head.length = 5)
    (hpayload : payload.length = l.toNat) : (head ++ [a, b] ++ payload).length = frameLen l := by
  simp only [List.length_append, List.length_cons, List.length_nil, hhead, hpayload, frameLen, Config.frameOverhead]
  omega

theorem State.nextOp_of_lt_frame {s : State} {t : PacketType} {l : Byte} (hf : s.fs = .payloadPending t l)
    (h : s.buf.length < l.toNat + 8) : s.nextOp = .ppWait := by
  have hlen : s.buf.length < needLen l := h
  simp only [State.nextOp, hf, if_pos hlen]

theorem State.nextOp_of_frame_parts {s : State} {t : PacketType} {l a b g : Byte} {head payload rest : List Byte}
    (hf : s.fs = .payloadPending t l) (hb : s.buf = head ++ [a, b] ++ payload ++ g :: rest) (hhead : head.length = 5)
    (hpayload : payload.length = l.toNat) : s.nextOp = payloadVerdict payload a b := by
  have hcheck : Memory.payOk (head ++ [a, b] ++ payload) l = (crc16 (payload ++ [a, b]) == 0x0000#16) := by
    simpa using Memory.payOk_parts head a b payload [] l hhead hpayload
  rw [State.nextOp_of_guardedFrame hf hb (frame_length_of_parts a b hhead hpayload), hcheck]
  simp only [payloadVerdict, beq_iff_eq]

/-- The three are selected in PayloadPending only. -/
theorem State.payloadPending_of_nextOp {s : State} (h : s.nextOp ∈ [.ppWait, .ppEmit, .ppBadcrc]) :
    ∃ t l, s.fs = .payloadPending t l := by
  cases hf : s.fs with
  | awaitingHeader =>
    rw [State.nextOp_awaitingHeader hf] at h
    split_ifs at h <;> simp at h
  | headerPending =>
    rw [State.nextOp_headerPending hf] at h
    split_ifs at h <;> simp at h
  | payloadPending t l => exact ⟨t, l, rfl⟩

theorem State.nextOp_eq_ppWait_iff (s : State) :
    s.nextOp = .ppWait ↔ ∃ t l, s.fs = .payloadPending t l ∧ s.buf.length < l.toNat + 8 := by
  refine ⟨fun hn => ?_, fun ⟨t, l, hf, hlen⟩ => State.nextOp_of_lt_frame hf hlen⟩
  obtain ⟨t, l, hf⟩ := State.payloadPending_of_nextOp (s := s) (by simp [hn])
  refine ⟨t, l, hf, Nat.lt_of_not_le fun hlen => ?_⟩
  obtain ⟨head, a, b, payload, g, rest, hb, hhead, hpayload⟩ := Memory.exists_frame hlen
  exact payloadVerdict_ne_ppWait ((State.nextOp_of_frame_parts hf hb hhead hpayload).symm.trans hn)

/-- The other two are selected by their verdict on a whole frame with a guard byte. -/
theorem State.nextOp_eq_iff_payloadVerdict (s : State) {i : Instr} (hi : i ∈ [.ppEmit, .ppBadcrc]) :
    s.nextOp = i ↔ ∃ t l head a b payload g rest, s.fs = .payloadPending t l ∧ s.buf = head ++ [a, b] ++ payload ++ g :: rest ∧
      head.length = 5 ∧ payload.length = l.toNat ∧ payloadVerdict payload a b = i := by
  constructor
  · rintro rfl
    obtain ⟨t, l, hf⟩ := State.payloadPending_of_nextOp (List.mem_cons_of_mem _ hi)
    have hlen : l.toNat + 8 ≤ s.buf.length := by
      by_contra hlt
      rw [State.nextOp_of_lt_frame hf (Nat.lt_of_not_le hlt)] at hi
      simp at hi
    obtain ⟨head, a, b, payload, g, rest, hb, hhead, hpayload⟩ := Memory.exists_frame hlen
    exact ⟨t, l, head, a, b, payload, g, rest, hf, hb, hhead, hpayload, (State.nextOp_of_frame_parts hf hb hhead hpayload).symm⟩
  · rintro ⟨t, l, head, a, b, payload, g, rest, hf, hb, hhead, hpayload, hv⟩
    exact (State.nextOp_of_frame_parts hf hb hhead hpayload).trans hv

theorem State.nextOp_eq_ppEmit_iff (s : State) : s.nextOp = .ppEmit ↔
    ∃ t l head a b payload g rest, s.fs = .payloadPending t l ∧ s.buf = head ++ [a, b] ++ payload ++ g :: rest ∧
      head.length = 5 ∧ payload.length = l.toNat ∧ crc16 (payload ++ [a, b]) = 0x0000#16 := by
  simp only [s.nextOp_eq_iff_payloadVerdict (i := .ppEmit) (by decide), payloadVerdict_eq_ppEmit_iff]

theorem State.nextOp_eq_ppBadcrc_iff (s : State) : s.nextOp = .ppBadcrc ↔
    ∃ t l head a b payload g rest, s.fs = .payloadPending t l ∧ s.buf = head ++ [a, b] ++ payload ++ g :: rest ∧
      head.length = 5 ∧ payload.length = l.toNat ∧ crc16 (payload ++ [a, b]) ≠ 0x0000#16 := by
  simp only [s.nextOp_eq_iff_payloadVerdict (i := .ppBadcrc) (by decide), payloadVerdict_eq_ppBadcrc_iff]

/-- Settles O12: PP.WAIT is selected exactly there (`State.nextOp_eq_ppWait_iff`), and a drain stops for want of bytes. -/
theorem ppWaitChangesNothing : Obligations.PpWaitChangesNothing := by
  intro s
  rw [← State.nextOp_eq_ppWait_iff]
  refine ⟨fun t l hf hlen => ?_, fun hn => exec_transition_of_ne_nextOp (by decide) (Ne.symm hn)⟩
  have hn : s.nextOp = .ppWait := State.nextOp_of_lt_frame hf hlen
  have hneed : s.buf.length < s.need := by
    rw [State.need, hf]
    exact hlen
  exact ⟨State.decisionWord_of_row (by decide) hn, State.whenSelected_of_eq s hn, State.drain_of_length_lt_need hneed⟩

/-- Settles O13: PP.EMIT is selected exactly there (`State.nextOp_eq_ppEmit_iff`), with the effect `exec_ppEmit`. -/
theorem ppEmitEmitsFrame : Obligations.PpEmitEmitsFrame := by
  intro s
  rw [← State.nextOp_eq_ppEmit_iff]
  refine ⟨fun t l head a b payload g rest hf hb hhead hpayload hcrc => ?_,
    fun hn => exec_transition_of_ne_nextOp (by decide) (Ne.symm hn)⟩
  have hn : s.nextOp = .ppEmit := (State.nextOp_of_frame_parts hf hb hhead hpayload).trans (if_pos hcrc)
  exact ⟨State.decisionWord_of_row (by decide) hn, exec_ppEmit hn hf hb (frame_length_of_parts a b hhead hpayload)⟩

/-- Settles O14: PP.BADCRC is selected exactly there (`State.nextOp_eq_ppBadcrc_iff`), and its effect is the resynchronisation
(`State.raiseResync_eq`), which drops the first byte of the header region. -/
theorem ppBadcrcResynchronises : Obligations.PpBadcrcResynchronises := by
  intro s
  rw [← State.nextOp_eq_ppBadcrc_iff]
  refine ⟨fun t l m head a b payload g rest hf hb hhead hpayload hcrc => ?_,
    fun hn => exec_transition_of_ne_nextOp (by decide) (Ne.symm hn)⟩
  have hheader : (m :: head).length = 5 := congrArg Nat.succ hhead
  have hn : s.nextOp = .ppBadcrc := (State.nextOp_of_frame_parts hf hb hheader hpayload).trans (if_neg hcrc)
  exact ⟨State.decisionWord_of_row (by decide) hn, (State.whenSelected_of_eq _ hn).trans (congrArg _ (State.raiseResync_eq hb _))⟩

end Sys2Proof.Machine

namespace Sys2Proof.Machine

/-! ### The output ports: the transfers of a packet and of the trace (R169) -/

/-- Each transfer is the byte at its index, with the marks that the index gives it. -/
theorem getElem?_beatsFrom (t : Byte) (len : BitVec 9) : ∀ (bytes : List Byte) (first : Bool) (i : Nat),
    (beatsFrom t len first bytes)[i]? = bytes[i]?.map fun b =>
      { data := b, first := first && i == 0, last := i + 1 == bytes.length, ptype := t, len := len }
  | [], _, _ => rfl
  | [_], first, 0 => by simp [beatsFrom]
  | [_], _, _ + 1 => by simp [beatsFrom]
  | _ :: _ :: _, first, 0 => by simp [beatsFrom]
  | _ :: c :: rest, _, i + 1 => by simp [beatsFrom, getElem?_beatsFrom t len (c :: rest) false i]

theorem ValidatedPacket.getElem?_beats (p : ValidatedPacket) (i : Nat) : p.beats[i]? = p.bytes[i]?.map fun b =>
    { data := b, first := i == 0, last := i + 1 == p.bytes.length, ptype := typeCode p.ptype, len := BitVec.ofNat 9 p.bytes.length } :=
  getElem?_beatsFrom _ _ _ true i

@[simp] theorem ValidatedPacket.map_data_beats (p : ValidatedPacket) : p.beats.map OutBeat.data = p.bytes := by
  refine List.ext_getElem? fun i => ?_
  rw [List.getElem?_map, p.getElem?_beats, Option.map_map]
  exact Option.map_id_apply

/-- Settles O58: each transfer is the byte at its index with that index's marks (`ValidatedPacket.getElem?_beats`). -/
theorem beatsCarryTheFrame : Obligations.BeatsCarryTheFrame := by
  refine fun p => ⟨p.map_data_beats, fun i x hx => ?_⟩
  rw [p.getElem?_beats] at hx
  obtain ⟨b, -, rfl⟩ := Option.map_eq_some_iff.mp hx
  exact ⟨beq_iff_eq, beq_iff_eq, rfl, rfl⟩

section
variable (s : State)

theorem State.map_data_outBeats : s.outBeats.map OutBeat.data = (s.out.map ValidatedPacket.bytes).flatten := by
  rw [State.outBeats, List.map_flatMap, List.flatMap_def]
  simp only [ValidatedPacket.map_data_beats]

theorem State.outBeats_length : s.outBeats.length = ((s.out.map ValidatedPacket.bytes).flatten).length := by
  rw [← State.map_data_outBeats, List.length_map]

theorem State.map_data_outBeat (n : Nat) :
    (s.outBeat n).map OutBeat.data = ((s.out.map ValidatedPacket.bytes).flatten)[n]? := by
  rw [← State.map_data_outBeats, List.getElem?_map, State.outBeat]

theorem State.outValid_iff (n : Nat) : s.outValid n = true ↔ n < ((s.out.map ValidatedPacket.bytes).flatten).length := by
  rw [State.outValid, State.outBeats_length, decide_eq_true_iff]

theorem State.outTransfer_true (n : Nat) : s.outTransfer true n = if s.outValid n = true then n + 1 else n := by
  rw [State.outTransfer, Bool.and_true]

theorem State.outTransfer_false (n : Nat) : s.outTransfer false n = n := by
  rw [State.outTransfer, Bool.and_false, if_neg Bool.false_ne_true]

theorem State.outEnd_iff (n : Nat) : s.outEnd n = true ↔ s.closed = true ∧ s.outValid n = false := by
  rw [State.outEnd, Bool.and_eq_true, Bool.not_eq_true']

theorem State.endOfOutput_iff (n : Nat) : s.endOfOutput n = true ↔ s.closed = true ∧ s.out.length ≤ n := by
  rw [State.endOfOutput, Bool.and_eq_true, decide_eq_true_iff]

/-! ### The input ports (R169): what they accept is what PUSH and CLOSE admit (R112, R113) -/

/-- Room does not depend on which byte is offered, so one `in_ready` answers for all. -/
theorem State.inReady_iff (b : Byte) :
    s.inReady = true ↔ exec (.push [b]) s = .next { s with buf := s.buf ++ [b] } := by
  have hroom : s.fits [b] = s.fits [0x00#8] := rfl
  simp only [exec, execPush_eq_next, hroom, State.inReady, Bool.and_eq_true, Bool.not_eq_true']
  exact ⟨fun ⟨⟨hq, hopen⟩, hfits⟩ => ⟨List.cons_ne_nil _ _, hopen, hq, hfits, rfl⟩,
    fun ⟨_, hopen, hq, hfits, _⟩ => ⟨⟨hq, hopen⟩, hfits⟩⟩

theorem State.inTransfer_eq_some_iff (v : Bool) (b : Byte) (e : EnvEvent) :
    s.inTransfer v b = some e ↔ v = true ∧ s.inReady = true ∧ e = .push [b] := by
  simp only [State.inTransfer, Option.ite_none_right_eq_some, Bool.and_eq_true, Option.some.injEq, and_assoc,
    eq_comm (a := EnvEvent.push [b])]

theorem State.closeAccepted_eq_some_iff (c : Bool) (e : EnvEvent) :
    s.closeAccepted c = some e ↔ c = true ∧ e = .close ∧ s.closed = false ∧ s.quiescent = true := by
  simp only [State.closeAccepted, Option.ite_none_right_eq_some, Bool.and_eq_true, Bool.not_eq_true', Option.some.injEq]
  exact ⟨fun ⟨⟨hc, hq, hopen⟩, he⟩ => ⟨hc, he.symm, hopen, hq⟩, fun ⟨hc, he, hopen, hq⟩ => ⟨⟨hc, hq, hopen⟩, he.symm⟩⟩

theorem State.closeAccepted_iff_exec_close :
    s.closeAccepted true = some .close ↔ exec .close s = .next { s with closed := true } := by
  rw [State.closeAccepted_eq_some_iff]
  refine Iff.trans ?_ execClose_eq_next.symm
  exact ⟨fun ⟨_, _, hopen, hq⟩ => ⟨hopen, hq, rfl⟩, fun ⟨hopen, hq, _⟩ => ⟨rfl, rfl, hopen, hq⟩⟩

theorem rstEvent_eq_some_iff (r : Bool) (e : EnvEvent) : rstEvent r = some e ↔ r = true ∧ e = .reset := by
  simp only [rstEvent, Option.ite_none_right_eq_some, Option.some.injEq, eq_comm (a := EnvEvent.reset)]

/-! ### The status ports (R169) -/

theorem fsCode_eq_iff (f : FrameState) : (fsCode f = 0b00#2 ↔ f = .awaitingHeader) ∧ (fsCode f = 0b01#2 ↔ f = .headerPending) ∧
    (fsCode f = 0b10#2 ↔ ∃ t l, f = .payloadPending t l) := by
  cases f <;> simp [fsCode]

/-- Nine bits hold every count up to 511. -/
theorem State.stCount_toNat {n : Nat} (hn : s.saturatedCount = n) (hle : n ≤ 511) : s.stCount.toNat = n := by
  have hlt : n < 2 ^ 9 := Nat.lt_succ_of_le hle
  rw [State.stCount, hn, if_pos hlt, BitVec.toNat_ofNat, Nat.mod_eq_of_lt hlt]

theorem State.saturatedCount_of_unbounded (h : s.cfg.bufCap = none) : s.saturatedCount = s.buf.length := by
  rw [State.saturatedCount, h]

theorem State.saturatedCount_of_bounded {n : Nat} (h : s.cfg.bufCap = some n) : s.saturatedCount = min s.buf.length n := by
  rw [State.saturatedCount, h]

theorem State.saturatedCount_of_withinCap (h : withinCap s = true) : s.saturatedCount = s.buf.length := by
  cases hc : s.cfg.bufCap with
  | none => exact s.saturatedCount_of_unbounded hc
  | some n => rw [s.saturatedCount_of_bounded hc, Nat.min_eq_left ((withinCap_iff s).mp h n hc)]

/-- At most 262 bytes are left at quiescence (R221), so the port shows them all. -/
theorem State.stCount_of_quiescent (hinv : s.inv = true) (hq : s.quiescent = true) : s.stCount.toNat = s.buf.length := by
  obtain ⟨-, -, -, hcap, -⟩ := (State.inv_iff s).mp hinv
  exact s.stCount_toNat (s.saturatedCount_of_withinCap hcap) ((State.length_le_of_quiescent hq).trans (by decide))

/-! ### The diagnostic ports (R169, R181) -/

theorem diagNumber_injective : Function.Injective diagNumber := fun a b h => by
  cases a <;> cases b <;> simp_all [diagNumber]

theorem State.diagCode_eq_some_iff (n : Nat) (c : DiagCode) : s.diagCode n = some (diagNumber c) ↔ s.dg[n]? = some c := by
  rw [State.diagCode, State.diagCodes, List.getElem?_map, ← Option.map_some]
  exact (Option.map_injective diagNumber_injective).eq_iff

theorem State.diagValid_iff (n : Nat) : s.diagValid n = true ↔ n < s.dg.length := by
  rw [State.diagValid, State.diagCodes, List.length_map, decide_eq_true_iff]

theorem State.diagValid_iff_diagCode (n : Nat) : s.diagValid n = true ↔ s.diagCode n ≠ none := by
  rw [State.diagValid, State.diagCode, decide_eq_true_iff, ne_eq, List.getElem?_eq_none_iff, Nat.not_le]

end

/-- Settles O59, port by port. -/
theorem portsShowState : Obligations.PortsShowState := by
  intro s
  obtain ⟨hawait, hheader, hpayload⟩ := fsCode_eq_iff s.fs
  refine ⟨⟨?input, ?transfer, ?close, ?closes, ?reset⟩, ⟨hawait, hheader, hpayload, ?unbounded, ?bounded, ?quiescent⟩,
    ⟨?beats, ?data, ?beat, ?valid, ?taken, ?outEnd, ?endOfOutput⟩, ?diagnostics⟩
  case input => exact s.inReady_iff
  case transfer => exact s.inTransfer_eq_some_iff
  case close => exact s.closeAccepted_eq_some_iff
  case closes => exact s.closeAccepted_iff_exec_close
  case reset => exact rstEvent_eq_some_iff
  case unbounded => exact fun hc => s.stCount_toNat (s.saturatedCount_of_unbounded hc)
  case bounded => exact fun n hc => s.stCount_toNat (s.saturatedCount_of_bounded hc)
  case quiescent => exact s.stCount_of_quiescent
  case beats => exact List.flatMap_def
  case data => exact s.map_data_outBeat
  case beat => exact fun _ => rfl
  case valid => exact s.outValid_iff
  case taken => exact fun n => ⟨s.outTransfer_true n, s.outTransfer_false n⟩
  case outEnd => exact s.outEnd_iff
  case endOfOutput => exact s.endOfOutput_iff
  case diagnostics =>
    exact fun n => ⟨s.diagValid_iff n, s.diagValid_iff_diagCode n, s.diagCode_eq_some_iff n .badSync,
      s.diagCode_eq_some_iff n .badHdrCrc, s.diagCode_eq_some_iff n .badType, s.diagCode_eq_some_iff n .badPayloadCrc⟩

end Sys2Proof.Machine

namespace Sys2Proof.Machine

/-! ### The condition each transition reports (R181 to R185, R192) -/

/-- The codes a transition reports when `DIAG_EN`: one for AH.SKIP and for each resynchronisation, none for any other operation. -/
def reportedCodes : Instr → List DiagCode
  | .ahSkip => [.badSync]
  | .hpBadcrc => [.badHdrCrc]
  | .hpBadtype => [.badType]
  | .ppBadcrc => [.badPayloadCrc]
  | _ => []

theorem reportedCodes_of_isWait {i : Instr} (h : isWait i = true) : reportedCodes i = [] := by
  simp only [isWait, Bool.or_eq_true, beq_iff_eq] at h
  obtain (rfl | rfl) | rfl := h <;> rfl

theorem State.diag_dg_eq_append (s : State) (c : DiagCode) : (s.diag c).dg = s.dg ++ (if s.cfg.diagEn then [c] else []) := by
  rw [State.diag_dg]
  cases s.cfg.diagEn
  · exact (List.append_nil _).symm
  · rfl

/-- A decoder transition writes its own code, and nothing else, at the end of `dg`. -/
theorem State.decoderStep_dg (s : State) :
    s.decoderStep.dg = s.dg ++ (if s.cfg.diagEn then reportedCodes s.nextOp else []) := by
  obtain ⟨hq, he⟩ | ⟨hn, -, -, he⟩ | ⟨hn, -, -, -, he⟩ | ⟨hn, -, -, -, t, l, -, he⟩ | ⟨hn, -, -, -, -, he⟩ |
    ⟨hn, -, -, -, he⟩ | ⟨t, l, -, -, ⟨hn, -, he⟩ | ⟨hn, -, he⟩⟩ := (decoder_cases s).2
  · simp [he, reportedCodes_of_isWait hq]
  · simp [he, hn, reportedCodes]
  · rw [he, hn]
    exact s.diag_dg_eq_append .badSync
  · simp [he, hn, reportedCodes]
  · rw [he, hn]
    exact s.diag_dg_eq_append .badType
  · rw [he, hn]
    exact s.diag_dg_eq_append .badHdrCrc
  · simp [he, hn, reportedCodes]
  · rw [he, hn]
    exact s.diag_dg_eq_append .badPayloadCrc

/-- Settles O26: with no event waiting the step is the decoder's transition, whose code is `State.decoderStep_dg`. -/
theorem conditionReportedByTransition : Obligations.ConditionReportedByTransition := by
  intro s t hi hstep
  rw [step_of_inbox, hi] at hstep
  cases hstep
  exact State.decoderStep_dg s

/-! ### Resynchronisation (R186) -/

/-- The three transitions that resynchronise, each with its code (R183 to R185). -/
def resyncTransitions : List (Instr × DiagCode) :=
  [(.hpBadcrc, .badHdrCrc), (.hpBadtype, .badType), (.ppBadcrc, .badPayloadCrc)]

theorem exec_resyncTransition {s : State} {i : Instr} {c : DiagCode} (h : (i, c) ∈ resyncTransitions) (hn : s.nextOp = i) :
    exec i s = .next (s.raiseResync c) := by
  simp only [resyncTransitions, List.mem_cons, List.not_mem_nil, or_false, Prod.mk.injEq] at h
  obtain ⟨rfl, rfl⟩ | ⟨rfl, rfl⟩ | ⟨rfl, rfl⟩ := h <;> exact State.whenSelected_of_eq _ hn

theorem State.ne_awaitingHeader_of_resyncTransition {s : State} {c : DiagCode} (h : (s.nextOp, c) ∈ resyncTransitions) :
    s.fs ≠ .awaitingHeader := by
  intro hf
  rw [State.nextOp_awaitingHeader hf] at h
  split_ifs at h <;> simp [resyncTransitions] at h

/-- R31 (HP), (PP): out of AwaitingHeader the second marker byte stands at the front. -/
theorem State.front_of_frameStateOk {s : State} (h : frameStateOk s = true) (hf : s.fs ≠ .awaitingHeader) :
    ∃ rest, s.buf = 0xFC#8 :: rest := by
  have hfront : s.buf.byteAt 0 = some Config.sync1 := by
    cases hfs : s.fs with
    | awaitingHeader => exact absurd hfs hf
    | headerPending => exact (frameStateOk_headerPending hfs).mp h
    | payloadPending t l =>
      obtain ⟨-, hfront, -⟩ := (frameStateOk_payloadPending hfs).mp h
      exact hfront
  exact List.head?_eq_some_iff.mp (List.head?_eq_getElem?.trans hfront)

/-- Settles O28: the three resynchronise (`exec_resyncTransition`) out of AwaitingHeader, where the invariant has the `0xFC` at the front
(`State.front_of_frameStateOk`), which is the byte `State.raiseResync_eq` drops. -/
theorem resyncDropsRetainedMarkerByte : Obligations.ResyncDropsRetainedMarkerByte := by
  rintro s _ c hmem hinv rfl
  obtain ⟨hfs, -⟩ := (State.inv_iff s).mp hinv
  obtain ⟨rest, hb⟩ := State.front_of_frameStateOk hfs (State.ne_awaitingHeader_of_resyncTransition hmem)
  exact ⟨rest, s.raiseResync c, hb, exec_resyncTransition hmem rfl, State.raiseResync_eq hb c, rfl, rfl⟩

/-! ### The refusals of PUSH and CLOSE by name (R200, in the order of log 11) -/

section
variable {s : State} {x : List Byte}

theorem execPush_of_closed (hx : x ≠ []) (hclosed : s.closed = true) : execPush x s = .refused .inputClosed := by
  simp [execPush, hx, hclosed]

theorem execPush_of_not_quiescent (hx : x ≠ []) (hopen : s.closed = false) (hq : s.quiescent = false) :
    execPush x s = .refused .notQuiescent := by
  simp [execPush, hx, hopen, hq]

theorem execPush_of_not_fits (hx : x ≠ []) (hopen : s.closed = false) (hq : s.quiescent = true) (hfull : s.fits x = false) :
    execPush x s = .refused .bufferFull := by
  simp [execPush, hx, hopen, hq, hfull]

theorem execClose_of_closed (hclosed : s.closed = true) : execClose s = .refused .inputClosed := by
  simp [execClose, hclosed]

theorem execClose_of_not_quiescent (hopen : s.closed = false) (hq : s.quiescent = false) :
    execClose s = .refused .notQuiescent := by
  simp [execClose, hopen, hq]

end

/-- Settles O4: one lemma per ground of refusal; a chunk beyond a finite BUF_CAP does not fit (`State.fits_iff`). -/
theorem inadmissibleEventsRefusedByName : Obligations.InadmissibleEventsRefusedByName := by
  intro s x
  refine ⟨rfl, execPush_of_closed, execClose_of_closed, execPush_of_not_quiescent, execClose_of_not_quiescent,
    fun n hx hopen hq hcap hlt => execPush_of_not_fits hx hopen hq ?_⟩
  rw [← Bool.not_eq_true, State.fits_iff]
  exact fun hfits => Nat.not_le_of_lt hlt (hfits n hcap)

end Sys2Proof.Machine

namespace Sys2Proof

/-- "A finite value must be at least 263" (R51), in numbers. -/
theorem Config.wf_iff (c : Config) : c.wf = true ↔ ∀ n, c.bufCap = some n → 263 ≤ n := by
  cases h : c.bufCap <;> simp [Config.wf, h]

end Sys2Proof

namespace Sys2Proof.Machine

/-! ### Occupancy of the buffer (R221) and room for byte-serial input (R51) -/

/-- Room for a chunk beside the most that is left at quiescence (R221) is room for it there. -/
theorem State.fits_of_quiescent {s : State} {x : List Byte} (hq : s.quiescent = true)
    (hcap : ∀ n, s.cfg.bufCap = some n → 262 + x.length ≤ n) : s.fits x = true :=
  (s.fits_iff x).mpr fun n hn => (Nat.add_le_add_right (State.length_le_of_quiescent hq) _).trans (hcap n hn)

/-- Settles O34: the bounds by frame state are those of quiescence (O21, `State.length_le_of_quiescent`), a transition never lengthens
`B` (`State.decoderStep_frame`), and a PUSH is admitted at quiescence only (`execPush_eq_next`), where a legal capacity leaves room for one
byte (`State.fits_of_quiescent`). -/
theorem occupancyBounds : Obligations.OccupancyBounds := by
  intro s hinv
  obtain ⟨-, -, -, -, -, hcfg⟩ := (State.inv_iff s).mp hinv
  obtain ⟨-, hawait, hheader, hpayload, -⟩ := quiescentExactly.1 s
  refine ⟨fun hq => ⟨State.length_le_of_quiescent hq, fun hf => ?await, fun hf => ?header, fun t l hf => ?payload⟩,
    fun t h => ?transition, fun x t h => ?push, fun b hopen hq => ?byte⟩
  case await => exact (hawait hinv hf).mp hq
  case header => exact ((hheader hinv hf).mp hq).2
  case payload => exact ((hpayload t l hinv hf).mp hq).2
  case transition =>
    rw [(decoder_cases s).1] at h
    cases h
    obtain ⟨-, -, -, hshrinks, -⟩ := s.decoderStep_frame
    exact hshrinks
  case push =>
    obtain ⟨-, -, hq, -, rfl⟩ := execPush_eq_next.mp h
    rw [State.append_buf, List.length_append]
    exact Nat.add_le_add_right (State.length_le_of_quiescent hq) _
  case byte =>
    have hfits : s.fits [b] = true := State.fits_of_quiescent hq ((Config.wf_iff s.cfg).mp hcfg)
    exact execPush_eq_next.mpr ⟨List.cons_ne_nil _ _, hopen, hq, hfits, rfl⟩

end Sys2Proof.Machine
